-- ==== Sys2Proof/Word.lean ====
section
/-! DEFINITION. The word types of the Polaris core: the 32-bit word, the byte, the 5-bit register index (rules R5, R8, R11). -/

namespace Sys2Proof

/-- A 32-bit value: a general register, `pc`, `ir`, an address, a data word (rule R5, `XLEN`). -/
abbrev Word := BitVec 32

/-- One byte of memory (rule R24). -/
abbrev Byte := BitVec 8

/-- The 5-bit index of a general register, as the instruction word carries it (rules R11, R13, R61). -/
abbrev RegIdx := BitVec 5

end Sys2Proof
end

