-- ==== Sys2Proof/Config.lean ====
section
/-! DEFINITION. The fixed parameters of rule R5 and the types of the open ones. The values chosen for the open parameters stand in Machine/Params.lean. -/

namespace Sys2Proof.Config

/-- Number of general registers (rule R5, `NREGS`). -/
abbrev nregs : Nat := 32

/-- Bytes in an instruction (rule R5, `ILEN` = 32 bits; rule R60). -/
abbrev ilenBytes : Nat := 4

/-- Number of byte addresses, the upper bound of `MEM_SIZE` (rule R5). -/
abbrev addressSpace : Nat := 2 ^ 32

/-- A `MEM_SIZE`, with the proof that it is one: a multiple of 4, at most 2^32 (R5, R32, U11). A memory of any other size
does not exist. -/
abbrev MemSize : Type := { n : Nat // n % 4 = 0 ∧ n ≤ addressSpace }

/-- `RESERVED_SUBOP_POLICY` of rules R5 and R77: what a reserved sub-encoding does.
`fatal` is the spec's decision (D8); `nop` (advance `pc` by 4, write nothing) is the alternative it offers. -/
inductive ReservedSubopPolicy where
  | fatal
  | nop
deriving DecidableEq, Repr

end Sys2Proof.Config
end

