-- ==== Sys2Proof/Machine/Params.lean ====
section
/-! DEFINITION. The values the model names for the open parameters of rule R5. No statement about every state depends on one of the first four; they shape State.reset and what an unlisted byte reads as. -/

namespace Sys2Proof.Machine.Params

/-- `MEM_SIZE` of the memory in `State.reset`: the largest the spec admits (R5, R32).
DESIGN CHOICE (unsafe): the spec leaves it open (D5, log entry 1). -/
def memSize : Config.MemSize := ⟨Config.addressSpace, by decide⟩

/-- `ENTRY_PC` of `State.reset`. DESIGN CHOICE (unsafe): the spec leaves it open (D5, log entry 2). -/
def entryPc : Word := 0#32

/-- `ir` in `State.reset`. DESIGN CHOICE (unsafe): the spec leaves it unspecified (R26, U2, log entry 3). -/
def irAtReset : Word := 0#32

/-- What a byte of memory that nothing has written reads as, a part of `MEM_INIT`.
DESIGN CHOICE (unsafe): the spec leaves it open (D3, U10, log entry 4). -/
def unlistedByte : Byte := 0#8

/-- `RESERVED_SUBOP_POLICY`, at the value the spec gives it (R5, R77, decision D8, log entry 10). -/
def reservedSubopPolicy : Config.ReservedSubopPolicy := .fatal

end Sys2Proof.Machine.Params
end

