-- ==== Sys2Proof/Machine/State.lean ====
section
/-! DEFINITION. The state of the Polaris core as plain data (rules R10 to R26), the two output records the model keeps beside it, the reasons a step can stop, and the state after reset. -/

namespace Sys2Proof.Machine

/-- The byte array of the Memory unit (R24, R31): its size, and the bytes that differ from `Params.unlistedByte`, in one
canonical form (`Memory.wf`). The size comes with the proof that the spec admits it (R32); it is fixed at construction, and
no operation of the model changes it. -/
structure Memory where
  memSize : Config.MemSize
  cells : List Host.Cell
deriving DecidableEq, Repr

/-- The run state (R20). -/
inductive RunState where
  | running
  | halted
deriving DecidableEq, Repr

/-- The operation a diagnostic names (R40). -/
inductive DiagKind where
  | read
  | write
  | fill
  | dump
deriving DecidableEq, Repr

/-- One event `diag(kind, address)` on the error channel (R40, decision D13). -/
structure Diag where
  kind : DiagKind
  address : Word
deriving DecidableEq, Repr

/-- The outcome of a tick (R95): status 0, status -1, or fatal with the offending opcode and `pc`. -/
inductive TickOutcome where
  | ok
  | brk
  | fatal (opcode : BitVec 7) (pc : Word)
deriving DecidableEq, Repr

/-- The machine. The first five fields are the whole architectural state of rule R10. The last two are the
MODEL's records of the machine's outputs, which no instruction can read: the outcome of the last tick
(R95, log entry 6) and the diagnostics emitted so far, newest first (R40, log entry 7). -/
structure State where
  /-- The general registers `x0` to `x31` (R11). -/
  x : Vector Word Config.nregs
  /-- The program counter (R15). -/
  pc : Word
  /-- The raw instruction word register (R18). -/
  ir : Word
  /-- The run state (R20). -/
  run : RunState
  /-- The memory (R24). -/
  mem : Memory
  /-- The outcome of the last tick; `none` when there was none since the reset. -/
  lastOutcome : Option TickOutcome
  /-- The diagnostics emitted so far, newest first. -/
  diags : List Diag
deriving DecidableEq, Repr

/-- Why a step can stop with a fault. -/
inductive Fault where
  /-- `tick` was invoked while `run = halted`, which the source calls undefined and the spec gives no step
  (R20, R91, R200, decision D11, U1). Raised by `tick` alone. Safe: the model stops where the hardware may do
  anything. -/
  | tickWhileHalted
deriving DecidableEq, Repr

/-- Why a step can be refused. -/
inductive Refusal where
  /-- The instruction has no meaning in this model yet. Raised by `exec`'s arms alone; no arm raises it. Safe. -/
  | notModelled (mnemonic : String)
deriving DecidableEq, Repr

/-- The machine right after reset (R26, R210): every register 0, `pc` the entry address, running. The memory lists
nothing. `ENTRY_PC`, `MEM_SIZE`, `ir` and unwritten memory are open in the spec; the values here are those of
`Params` (log entries 1 to 4). -/
def State.reset : State where
  x := Vector.replicate Config.nregs 0#32
  pc := Params.entryPc
  ir := Params.irAtReset
  run := .running
  mem := { memSize := Params.memSize, cells := [] }
  lastOutcome := none
  diags := []

end Sys2Proof.Machine
end

