-- ==== Sys2Proof/Machine/Flags.lean ====
section
/-! DEFINITION. There are no status flags (R21): no instruction sets one. The only conditions are the alu's six comparisons, each one bit decided inside a tick (R145, R146). -/

namespace Sys2Proof.Machine

/-- The comparisons of the alu's comparator (R146). -/
inductive Cmp where
  | eq
  | ne
  | lt
  | ge
  | ltu
  | geu
deriving DecidableEq, Repr

/-- `taken`: the comparator, on two's-complement integers for LT and GE, on naturals for LTU and GEU (R146). -/
def Cmp.taken : Cmp → Word → Word → Bool
  | .eq, a, b => decide (a = b)
  | .ne, a, b => decide (a ≠ b)
  | .lt, a, b => decide (a.toInt < b.toInt)
  | .ge, a, b => decide (b.toInt ≤ a.toInt)
  | .ltu, a, b => decide (a.toNat < b.toNat)
  | .geu, a, b => decide (b.toNat ≤ a.toNat)

/-- A comparison written to a register: exactly 1 or 0 (R146). -/
def boolWord (b : Bool) : Word := if b then 1#32 else 0#32

end Sys2Proof.Machine
end

