-- ==== Sys2Proof/Machine/Alu.lean ====
section
/-! DEFINITION. The alu unit: the ten operations on two 32-bit operands (R145, R146, R158). -/

namespace Sys2Proof.Machine

/-- The operations of the alu (R146). -/
inductive AluOp where
  | add
  | sub
  | sll
  | slt
  | sltu
  | xor
  | srl
  | sra
  | or
  | and
deriving DecidableEq, Repr

/-- `b[4:0]`, the shift amount (R146). -/
def shiftAmount (b : Word) : Nat := (b.extractLsb' 0 5).toNat

/-- `alu(op, a, b)` (R146). -/
def alu : AluOp → Word → Word → Word
  | .add, a, b => a + b
  | .sub, a, b => a - b
  | .sll, a, b => a <<< shiftAmount b
  | .slt, a, b => boolWord (Cmp.lt.taken a b)
  | .sltu, a, b => boolWord (Cmp.ltu.taken a b)
  | .xor, a, b => a ^^^ b
  | .srl, a, b => a >>> shiftAmount b
  | .sra, a, b => a.sshiftRight (shiftAmount b)
  | .or, a, b => a ||| b
  | .and, a, b => a &&& b

end Sys2Proof.Machine
end

