-- ==== Sys2Proof/Syntax.lean ====
section
/-! DEFINITION. The instructions of the Polaris core: one constructor per row of spec/opcode_table.json (rules R70 to R76). -/

namespace Sys2Proof

/-- An instruction, with its operands in the order of the assembler form (rule R82).

An immediate is held with the width its format gives it, before any extension: 12 bits for I and S
(rules R63, R64), the 13-bit even byte offset for B (R65), the 21-bit even byte offset for J (R67), the
20-bit upper field for U (R66), the 5-bit amount for a shift (R69). -/
inductive Instr where
  /-- `LB rd, imm(rs1)` (R108). -/
  | lb (rd rs1 : RegIdx) (imm : BitVec 12)
  /-- `LH rd, imm(rs1)` (R109). -/
  | lh (rd rs1 : RegIdx) (imm : BitVec 12)
  /-- `LW rd, imm(rs1)` (R110). -/
  | lw (rd rs1 : RegIdx) (imm : BitVec 12)
  /-- `LBU rd, imm(rs1)` (R111). -/
  | lbu (rd rs1 : RegIdx) (imm : BitVec 12)
  /-- `LHU rd, imm(rs1)` (R112). -/
  | lhu (rd rs1 : RegIdx) (imm : BitVec 12)
  /-- `SB rs2, imm(rs1)` (R118). -/
  | sb (rs2 rs1 : RegIdx) (imm : BitVec 12)
  /-- `SH rs2, imm(rs1)` (R119). -/
  | sh (rs2 rs1 : RegIdx) (imm : BitVec 12)
  /-- `SW rs2, imm(rs1)` (R120). -/
  | sw (rs2 rs1 : RegIdx) (imm : BitVec 12)
  /-- `LUI rd, imm20` (R125). -/
  | lui (rd : RegIdx) (imm : BitVec 20)
  /-- `AUIPC rd, imm20` (R126). -/
  | auipc (rd : RegIdx) (imm : BitVec 20)
  /-- `JAL rd, offset` (R130). -/
  | jal (rd : RegIdx) (offset : BitVec 21)
  /-- `JALR rd, imm(rs1)` (R131). -/
  | jalr (rd rs1 : RegIdx) (imm : BitVec 12)
  /-- `BEQ rs1, rs2, offset` (R136). -/
  | beq (rs1 rs2 : RegIdx) (offset : BitVec 13)
  /-- `BNE rs1, rs2, offset` (R137). -/
  | bne (rs1 rs2 : RegIdx) (offset : BitVec 13)
  /-- `BLT rs1, rs2, offset` (R138). -/
  | blt (rs1 rs2 : RegIdx) (offset : BitVec 13)
  /-- `BGE rs1, rs2, offset` (R139). -/
  | bge (rs1 rs2 : RegIdx) (offset : BitVec 13)
  /-- `BLTU rs1, rs2, offset` (R140). -/
  | bltu (rs1 rs2 : RegIdx) (offset : BitVec 13)
  /-- `BGEU rs1, rs2, offset` (R141). -/
  | bgeu (rs1 rs2 : RegIdx) (offset : BitVec 13)
  /-- `ADD rd, rs1, rs2` (R148). -/
  | add (rd rs1 rs2 : RegIdx)
  /-- `SUB rd, rs1, rs2` (R149). -/
  | sub (rd rs1 rs2 : RegIdx)
  /-- `SLL rd, rs1, rs2` (R150). -/
  | sll (rd rs1 rs2 : RegIdx)
  /-- `SLT rd, rs1, rs2` (R151). -/
  | slt (rd rs1 rs2 : RegIdx)
  /-- `SLTU rd, rs1, rs2` (R152). -/
  | sltu (rd rs1 rs2 : RegIdx)
  /-- `XOR rd, rs1, rs2` (R153). -/
  | xor (rd rs1 rs2 : RegIdx)
  /-- `SRL rd, rs1, rs2` (R154). -/
  | srl (rd rs1 rs2 : RegIdx)
  /-- `SRA rd, rs1, rs2` (R155). -/
  | sra (rd rs1 rs2 : RegIdx)
  /-- `OR rd, rs1, rs2` (R156). -/
  | or (rd rs1 rs2 : RegIdx)
  /-- `AND rd, rs1, rs2` (R157). -/
  | and (rd rs1 rs2 : RegIdx)
  /-- `ADDI rd, rs1, imm` (R166). -/
  | addi (rd rs1 : RegIdx) (imm : BitVec 12)
  /-- `SLTI rd, rs1, imm` (R167). -/
  | slti (rd rs1 : RegIdx) (imm : BitVec 12)
  /-- `SLTIU rd, rs1, imm` (R168). -/
  | sltiu (rd rs1 : RegIdx) (imm : BitVec 12)
  /-- `XORI rd, rs1, imm` (R169). -/
  | xori (rd rs1 : RegIdx) (imm : BitVec 12)
  /-- `ORI rd, rs1, imm` (R170). -/
  | ori (rd rs1 : RegIdx) (imm : BitVec 12)
  /-- `ANDI rd, rs1, imm` (R171). -/
  | andi (rd rs1 : RegIdx) (imm : BitVec 12)
  /-- `SLLI rd, rs1, shamt` (R172). -/
  | slli (rd rs1 : RegIdx) (shamt : BitVec 5)
  /-- `SRLI rd, rs1, shamt` (R173). -/
  | srli (rd rs1 : RegIdx) (shamt : BitVec 5)
  /-- `SRAI rd, rs1, shamt` (R174). -/
  | srai (rd rs1 : RegIdx) (shamt : BitVec 5)
  /-- `EBREAK`, the one word `0x00100073` (R181). -/
  | ebreak
  /-- Every other word of opcode `1110011` (R182), with the I-type fields the table's row names; none of them is used. -/
  | systemIgnored (imm : BitVec 12) (rs1 : RegIdx) (funct3 : BitVec 3) (rd : RegIdx)
deriving DecidableEq, Repr

end Sys2Proof
end

