-- ==== Sys2Proof/WellFormed.lean ====
section
/-! DEFINITION. Which terms of Instr a word can spell. Every register index, 12-bit, 20-bit and 5-bit operand has the width of its field, so three things are left to check: a branch offset is even (R65, R68), a jump offset is even (R67, R68), and an ignored SYSTEM word is not the breakpoint word (R76, R182). -/

namespace Sys2Proof

/-- Bit 0 of a branch or JAL offset is always 0 (R68). -/
abbrev evenOffset {w : Nat} (offset : BitVec w) : Bool := !offset.getLsbD 0

/-- The instruction is one that some instruction word spells. -/
def Instr.wellFormed : Instr → Bool
  | .beq _ _ offset => evenOffset offset
  | .bne _ _ offset => evenOffset offset
  | .blt _ _ offset => evenOffset offset
  | .bge _ _ offset => evenOffset offset
  | .bltu _ _ offset => evenOffset offset
  | .bgeu _ _ offset => evenOffset offset
  | .jal _ offset => evenOffset offset
  | .systemIgnored imm rs1 funct3 rd => !(imm == 1 && rs1 == 0 && funct3 == 0 && rd == 0)
  | .lb _ _ _ | .lh _ _ _ | .lw _ _ _ | .lbu _ _ _ | .lhu _ _ _ => true
  | .sb _ _ _ | .sh _ _ _ | .sw _ _ _ => true
  | .lui _ _ | .auipc _ _ | .jalr _ _ _ => true
  | .add _ _ _ | .sub _ _ _ | .sll _ _ _ | .slt _ _ _ | .sltu _ _ _ => true
  | .xor _ _ _ | .srl _ _ _ | .sra _ _ _ | .or _ _ _ | .and _ _ _ => true
  | .addi _ _ _ | .slti _ _ _ | .sltiu _ _ _ | .xori _ _ _ | .ori _ _ _ | .andi _ _ _ => true
  | .slli _ _ _ | .srli _ _ _ | .srai _ _ _ => true
  | .ebreak => true

end Sys2Proof
end

