-- ==== Sys2Proof/Decode.lean ====
section
/-! DEFINITION. The instruction_decoder unit (rules R60 to R81): the fixed fields and the five immediates of a word, the decision tree that selects its class, and after it the encoder. Every numeric code and bit position is the spec's, which marks it as the public RV32I one (log entry 9). -/

namespace Sys2Proof

/-! ## The fixed fields (R61) -/

/-- `opcode = inst[6:0]` (R61). -/
def opcodeOf (w : Word) : BitVec 7 := w.extractLsb' 0 7
/-- `rd = inst[11:7]` (R61). -/
def rdOf (w : Word) : RegIdx := w.extractLsb' 7 5
/-- `funct3 = inst[14:12]` (R61). -/
def funct3Of (w : Word) : BitVec 3 := w.extractLsb' 12 3
/-- `rs1 = inst[19:15]` (R61). -/
def rs1Of (w : Word) : RegIdx := w.extractLsb' 15 5
/-- `rs2 = inst[24:20]` (R61). -/
def rs2Of (w : Word) : RegIdx := w.extractLsb' 20 5
/-- `funct7 = inst[31:25]` (R61). -/
def funct7Of (w : Word) : BitVec 7 := w.extractLsb' 25 7

/-! ## The immediate fields, before extension (R63 to R67, R69) -/

/-- `inst[31:20]`, the I-type field (R63). -/
def iField (w : Word) : BitVec 12 := w.extractLsb' 20 12
/-- `shamt = inst[24:20]`, the amount of a shift-immediate (R69). -/
def shamtOf (w : Word) : BitVec 5 := w.extractLsb' 20 5
/-- `inst[31:25] ++ inst[11:7]`, the S-type field (R64). -/
def sField (w : Word) : BitVec 12 := w.extractLsb' 25 7 ++ w.extractLsb' 7 5
/-- `inst[31] ++ inst[7] ++ inst[30:25] ++ inst[11:8] ++ 0`, the B-type byte offset (R65, R68). -/
def bField (w : Word) : BitVec 13 :=
  w.extractLsb' 31 1 ++ w.extractLsb' 7 1 ++ w.extractLsb' 25 6 ++ w.extractLsb' 8 4 ++ 0#1
/-- `inst[31:12]`, the U-type field (R66). -/
def uField (w : Word) : BitVec 20 := w.extractLsb' 12 20
/-- `inst[31] ++ inst[19:12] ++ inst[20] ++ inst[30:21] ++ 0`, the J-type byte offset (R67, R68). -/
def jField (w : Word) : BitVec 21 :=
  w.extractLsb' 31 1 ++ w.extractLsb' 12 8 ++ w.extractLsb' 20 1 ++ w.extractLsb' 21 10 ++ 0#1

/-! ## The five immediates as 32-bit values (R68) -/

/-- `sext_12` of an I or S field (R68). -/
def sext12 (imm : BitVec 12) : Word := imm.signExtend 32
/-- `sext_13` of a B offset (R68). -/
def sext13 (offset : BitVec 13) : Word := offset.signExtend 32
/-- `sext_21` of a J offset (R68). -/
def sext21 (offset : BitVec 21) : Word := offset.signExtend 32
/-- The U field above twelve zeros, with no extension (R68). -/
def upper20 (imm : BitVec 20) : Word := imm ++ 0#12

/-- `imm_i` (R68). -/
def immI (w : Word) : Word := sext12 (iField w)
/-- `imm_s` (R68). -/
def immS (w : Word) : Word := sext12 (sField w)
/-- `imm_b` (R68). -/
def immB (w : Word) : Word := sext13 (bField w)
/-- `imm_u` (R68). -/
def immU (w : Word) : Word := upper20 (uField w)
/-- `imm_j` (R68). -/
def immJ (w : Word) : Word := sext21 (jField w)

/-! ## The decision tree (R70 to R78) -/

/-- `op_sel` of rule R81: the class of a word. The 37 mnemonics, EBREAK and SYSTEM_IGNORED are `instr i`;
the two other classes are the words that spell no instruction. -/
inductive OpSel where
  | instr (i : Instr)
  /-- A recognised opcode with an unassigned funct3 or funct7 (R77). -/
  | reservedSubop
  /-- An opcode outside the ten values of rule R70 (R78). -/
  | illegalOpcode
deriving DecidableEq, Repr

/-- The word EBREAK, `0x00100073` (R76, decision D9). -/
def ebreakWord : Word := 0x00100073#32

/-- LOAD, opcode `0000011` (R71). -/
def decodeLoad (w : Word) : OpSel :=
  match funct3Of w with
  | 0b000#3 => .instr (.lb (rdOf w) (rs1Of w) (iField w))
  | 0b001#3 => .instr (.lh (rdOf w) (rs1Of w) (iField w))
  | 0b010#3 => .instr (.lw (rdOf w) (rs1Of w) (iField w))
  | 0b100#3 => .instr (.lbu (rdOf w) (rs1Of w) (iField w))
  | 0b101#3 => .instr (.lhu (rdOf w) (rs1Of w) (iField w))
  | _ => .reservedSubop

/-- STORE, opcode `0100011` (R72). -/
def decodeStore (w : Word) : OpSel :=
  match funct3Of w with
  | 0b000#3 => .instr (.sb (rs2Of w) (rs1Of w) (sField w))
  | 0b001#3 => .instr (.sh (rs2Of w) (rs1Of w) (sField w))
  | 0b010#3 => .instr (.sw (rs2Of w) (rs1Of w) (sField w))
  | _ => .reservedSubop

/-- JALR, opcode `1100111`: funct3 must be 000 (R70, R77). -/
def decodeJalr (w : Word) : OpSel :=
  match funct3Of w with
  | 0b000#3 => .instr (.jalr (rdOf w) (rs1Of w) (iField w))
  | _ => .reservedSubop

/-- Branches, opcode `1100011` (R73). -/
def decodeBranch (w : Word) : OpSel :=
  match funct3Of w with
  | 0b000#3 => .instr (.beq (rs1Of w) (rs2Of w) (bField w))
  | 0b001#3 => .instr (.bne (rs1Of w) (rs2Of w) (bField w))
  | 0b100#3 => .instr (.blt (rs1Of w) (rs2Of w) (bField w))
  | 0b101#3 => .instr (.bge (rs1Of w) (rs2Of w) (bField w))
  | 0b110#3 => .instr (.bltu (rs1Of w) (rs2Of w) (bField w))
  | 0b111#3 => .instr (.bgeu (rs1Of w) (rs2Of w) (bField w))
  | _ => .reservedSubop

/-- Register-register ALU ops with funct7 = 0000000 (R74, first column). -/
def decodeAluRegBase (w : Word) : OpSel :=
  match funct3Of w with
  | 0b000#3 => .instr (.add (rdOf w) (rs1Of w) (rs2Of w))
  | 0b001#3 => .instr (.sll (rdOf w) (rs1Of w) (rs2Of w))
  | 0b010#3 => .instr (.slt (rdOf w) (rs1Of w) (rs2Of w))
  | 0b011#3 => .instr (.sltu (rdOf w) (rs1Of w) (rs2Of w))
  | 0b100#3 => .instr (.xor (rdOf w) (rs1Of w) (rs2Of w))
  | 0b101#3 => .instr (.srl (rdOf w) (rs1Of w) (rs2Of w))
  | 0b110#3 => .instr (.or (rdOf w) (rs1Of w) (rs2Of w))
  | 0b111#3 => .instr (.and (rdOf w) (rs1Of w) (rs2Of w))
  | _ => .reservedSubop

/-- Register-register ALU ops with funct7 = 0100000 (R74, second column). -/
def decodeAluRegAlt (w : Word) : OpSel :=
  match funct3Of w with
  | 0b000#3 => .instr (.sub (rdOf w) (rs1Of w) (rs2Of w))
  | 0b101#3 => .instr (.sra (rdOf w) (rs1Of w) (rs2Of w))
  | _ => .reservedSubop

/-- Register-register ALU ops, opcode `0110011` (R74). -/
def decodeAluReg (w : Word) : OpSel :=
  match funct7Of w with
  | 0b0000000#7 => decodeAluRegBase w
  | 0b0100000#7 => decodeAluRegAlt w
  | _ => .reservedSubop

/-- The left shift of the register-immediate group: `inst[31:25]` must be 0000000 (R69, R75). -/
def decodeShiftLeftImm (w : Word) : OpSel :=
  match funct7Of w with
  | 0b0000000#7 => .instr (.slli (rdOf w) (rs1Of w) (shamtOf w))
  | _ => .reservedSubop

/-- The right shifts of the register-immediate group, told apart by `inst[31:25]` (R69, R75). -/
def decodeShiftRightImm (w : Word) : OpSel :=
  match funct7Of w with
  | 0b0000000#7 => .instr (.srli (rdOf w) (rs1Of w) (shamtOf w))
  | 0b0100000#7 => .instr (.srai (rdOf w) (rs1Of w) (shamtOf w))
  | _ => .reservedSubop

/-- Register-immediate ALU ops, opcode `0010011` (R75). -/
def decodeAluImm (w : Word) : OpSel :=
  match funct3Of w with
  | 0b000#3 => .instr (.addi (rdOf w) (rs1Of w) (iField w))
  | 0b001#3 => decodeShiftLeftImm w
  | 0b010#3 => .instr (.slti (rdOf w) (rs1Of w) (iField w))
  | 0b011#3 => .instr (.sltiu (rdOf w) (rs1Of w) (iField w))
  | 0b100#3 => .instr (.xori (rdOf w) (rs1Of w) (iField w))
  | 0b101#3 => decodeShiftRightImm w
  | 0b110#3 => .instr (.ori (rdOf w) (rs1Of w) (iField w))
  | 0b111#3 => .instr (.andi (rdOf w) (rs1Of w) (iField w))
  | _ => .reservedSubop

/-- System, opcode `1110011`: the one word EBREAK, tried first, and the ignored words (R76). -/
def decodeSystem (w : Word) : OpSel :=
  if w = ebreakWord then .instr .ebreak
  else .instr (.systemIgnored (iField w) (rs1Of w) (funct3Of w) (rdOf w))

/-- The decoder's `op_sel`: opcode, then funct3, then `inst[31:25]` (R70, R81). Total on every word. -/
def decode (w : Word) : OpSel :=
  match opcodeOf w with
  | 0b0000011#7 => decodeLoad w
  | 0b0100011#7 => decodeStore w
  | 0b0110111#7 => .instr (.lui (rdOf w) (uField w))
  | 0b0010111#7 => .instr (.auipc (rdOf w) (uField w))
  | 0b1101111#7 => .instr (.jal (rdOf w) (jField w))
  | 0b1100111#7 => decodeJalr w
  | 0b1100011#7 => decodeBranch w
  | 0b0110011#7 => decodeAluReg w
  | 0b0010011#7 => decodeAluImm w
  | 0b1110011#7 => decodeSystem w
  | _ => .illegalOpcode

/-- The instruction the decoder reads from the bits `w` of a table row of `nbits` bits; the bits above `nbits` are 0
(every instruction is one 32-bit word, R60). -/
def decodeTableWord (nbits w : Nat) : Option Instr :=
  match decode (BitVec.ofNat 32 (w % 2 ^ nbits)) with
  | .instr i => some i
  | .reservedSubop => none
  | .illegalOpcode => none

/-! ## The encoder, from the layouts of R62 to R67 and the codes of R70 to R76 -/

/-- R-type (R62), and the shift form of I-type with the amount in the rs2 place (R69). -/
def encR (funct7 : BitVec 7) (rs2 rs1 : BitVec 5) (funct3 : BitVec 3) (rd : BitVec 5) (opcode : BitVec 7) : Word :=
  funct7 ++ rs2 ++ rs1 ++ funct3 ++ rd ++ opcode
/-- I-type (R63). -/
def encI (imm : BitVec 12) (rs1 : BitVec 5) (funct3 : BitVec 3) (rd : BitVec 5) (opcode : BitVec 7) : Word :=
  imm ++ rs1 ++ funct3 ++ rd ++ opcode
/-- S-type (R64). -/
def encS (imm : BitVec 12) (rs2 rs1 : BitVec 5) (funct3 : BitVec 3) (opcode : BitVec 7) : Word :=
  imm.extractLsb' 5 7 ++ rs2 ++ rs1 ++ funct3 ++ imm.extractLsb' 0 5 ++ opcode
/-- B-type (R65). -/
def encB (offset : BitVec 13) (rs2 rs1 : BitVec 5) (funct3 : BitVec 3) (opcode : BitVec 7) : Word :=
  offset.extractLsb' 12 1 ++ offset.extractLsb' 5 6 ++ rs2 ++ rs1 ++ funct3
    ++ offset.extractLsb' 1 4 ++ offset.extractLsb' 11 1 ++ opcode
/-- U-type (R66). -/
def encU (imm : BitVec 20) (rd : BitVec 5) (opcode : BitVec 7) : Word :=
  imm ++ rd ++ opcode
/-- J-type (R67). -/
def encJ (offset : BitVec 21) (rd : BitVec 5) (opcode : BitVec 7) : Word :=
  offset.extractLsb' 20 1 ++ offset.extractLsb' 1 10 ++ offset.extractLsb' 11 1 ++ offset.extractLsb' 12 8
    ++ rd ++ opcode

/-- The word of an instruction (R62 to R76). -/
def encode : Instr → Word
  | .lb rd rs1 imm => encI imm rs1 0b000#3 rd 0b0000011#7
  | .lh rd rs1 imm => encI imm rs1 0b001#3 rd 0b0000011#7
  | .lw rd rs1 imm => encI imm rs1 0b010#3 rd 0b0000011#7
  | .lbu rd rs1 imm => encI imm rs1 0b100#3 rd 0b0000011#7
  | .lhu rd rs1 imm => encI imm rs1 0b101#3 rd 0b0000011#7
  | .sb rs2 rs1 imm => encS imm rs2 rs1 0b000#3 0b0100011#7
  | .sh rs2 rs1 imm => encS imm rs2 rs1 0b001#3 0b0100011#7
  | .sw rs2 rs1 imm => encS imm rs2 rs1 0b010#3 0b0100011#7
  | .lui rd imm => encU imm rd 0b0110111#7
  | .auipc rd imm => encU imm rd 0b0010111#7
  | .jal rd offset => encJ offset rd 0b1101111#7
  | .jalr rd rs1 imm => encI imm rs1 0b000#3 rd 0b1100111#7
  | .beq rs1 rs2 offset => encB offset rs2 rs1 0b000#3 0b1100011#7
  | .bne rs1 rs2 offset => encB offset rs2 rs1 0b001#3 0b1100011#7
  | .blt rs1 rs2 offset => encB offset rs2 rs1 0b100#3 0b1100011#7
  | .bge rs1 rs2 offset => encB offset rs2 rs1 0b101#3 0b1100011#7
  | .bltu rs1 rs2 offset => encB offset rs2 rs1 0b110#3 0b1100011#7
  | .bgeu rs1 rs2 offset => encB offset rs2 rs1 0b111#3 0b1100011#7
  | .add rd rs1 rs2 => encR 0b0000000#7 rs2 rs1 0b000#3 rd 0b0110011#7
  | .sub rd rs1 rs2 => encR 0b0100000#7 rs2 rs1 0b000#3 rd 0b0110011#7
  | .sll rd rs1 rs2 => encR 0b0000000#7 rs2 rs1 0b001#3 rd 0b0110011#7
  | .slt rd rs1 rs2 => encR 0b0000000#7 rs2 rs1 0b010#3 rd 0b0110011#7
  | .sltu rd rs1 rs2 => encR 0b0000000#7 rs2 rs1 0b011#3 rd 0b0110011#7
  | .xor rd rs1 rs2 => encR 0b0000000#7 rs2 rs1 0b100#3 rd 0b0110011#7
  | .srl rd rs1 rs2 => encR 0b0000000#7 rs2 rs1 0b101#3 rd 0b0110011#7
  | .sra rd rs1 rs2 => encR 0b0100000#7 rs2 rs1 0b101#3 rd 0b0110011#7
  | .or rd rs1 rs2 => encR 0b0000000#7 rs2 rs1 0b110#3 rd 0b0110011#7
  | .and rd rs1 rs2 => encR 0b0000000#7 rs2 rs1 0b111#3 rd 0b0110011#7
  | .addi rd rs1 imm => encI imm rs1 0b000#3 rd 0b0010011#7
  | .slti rd rs1 imm => encI imm rs1 0b010#3 rd 0b0010011#7
  | .sltiu rd rs1 imm => encI imm rs1 0b011#3 rd 0b0010011#7
  | .xori rd rs1 imm => encI imm rs1 0b100#3 rd 0b0010011#7
  | .ori rd rs1 imm => encI imm rs1 0b110#3 rd 0b0010011#7
  | .andi rd rs1 imm => encI imm rs1 0b111#3 rd 0b0010011#7
  | .slli rd rs1 shamt => encR 0b0000000#7 shamt rs1 0b001#3 rd 0b0010011#7
  | .srli rd rs1 shamt => encR 0b0000000#7 shamt rs1 0b101#3 rd 0b0010011#7
  | .srai rd rs1 shamt => encR 0b0100000#7 shamt rs1 0b101#3 rd 0b0010011#7
  | .ebreak => encI 0b000000000001#12 0#5 0b000#3 0#5 0b1110011#7
  | .systemIgnored imm rs1 funct3 rd => encI imm rs1 funct3 rd 0b1110011#7

end Sys2Proof
end

