-- ==== Sys2Proof/Machine/Memory.lean ====
section
/-! DEFINITION. The unit byte_addressable_memory_with_masks as data (rules R30 to R42): construction, the contract check, reading a byte and a little-endian word, writing a byte and a masked word, filling, and the canonical form. -/

namespace Sys2Proof.Machine

/-! ## The list of listed bytes -/

/-- The byte listed for address `a`, if one is. -/
def lookupCell : List Host.Cell → Nat → Option Byte
  | [], _ => none
  | (n, b) :: rest, a => if n = a then some b else lookupCell rest a

/-- List byte `b` for address `a`, keeping rising addresses rising. -/
def insertCell (a : Nat) (b : Byte) : List Host.Cell → List Host.Cell
  | [] => [(a, b)]
  | (n, c) :: rest =>
    if a < n then (a, b) :: (n, c) :: rest
    else if a = n then (a, b) :: rest
    else (n, c) :: insertCell a b rest

/-- List nothing for address `a`. -/
def eraseCell (a : Nat) : List Host.Cell → List Host.Cell
  | [] => []
  | (n, c) :: rest => if n = a then eraseCell a rest else (n, c) :: eraseCell a rest

/-- Every address listed is above `lo`, and the addresses strictly rise. -/
def risingFrom : Nat → List Host.Cell → Bool
  | _, [] => true
  | lo, (n, _) :: rest => decide (lo ≤ n) && risingFrom (n + 1) rest

namespace Memory

/-! ## Construction (R32) -/

/-- `MEM_SIZE`, in bytes. -/
def size (m : Memory) : Nat := m.memSize.val

/-- Constructing a memory of `n` bytes, with nothing written: it fails unless `n` is a `MEM_SIZE` (R32, U11). -/
def construct (n : Nat) : Option Memory :=
  if h : n % 4 = 0 ∧ n ≤ Config.addressSpace then some { memSize := ⟨n, h⟩, cells := [] } else none

/-! ## The contract check (R34) -/

/-- `valid(a)`, in unbounded integers (R34, decision D14). -/
abbrev Valid (m : Memory) (a : Word) : Prop := a.toNat % 4 = 0 ∧ a.toNat + 4 ≤ m.size

/-- `valid_span(a, n)`, `n` a word count, in unbounded integers (R34, decision D14). -/
abbrev ValidSpan (m : Memory) (a : Word) (n : Nat) : Prop := m.Valid a ∧ a.toNat + 4 * n ≤ m.size

/-! ## Bytes and words -/

/-- `mem[a]`, the byte at address `a` (R24). A byte that nothing has written reads as `Params.unlistedByte`
(log entry 4). -/
def byte (m : Memory) (a : Nat) : Byte := (lookupCell m.cells a).getD Params.unlistedByte

/-- `mem[a] <- b`; a byte equal to what an unlisted address reads as is not listed. -/
def setByte (m : Memory) (a : Nat) (b : Byte) : Memory :=
  { m with cells := if b = Params.unlistedByte then eraseCell a m.cells else insertCell a b m.cells }

/-- The little-endian word at `a`: `mem[a+3] ++ mem[a+2] ++ mem[a+1] ++ mem[a]` (R33, R35). -/
def word (m : Memory) (a : Nat) : Word := m.byte (a + 3) ++ m.byte (a + 2) ++ m.byte (a + 1) ++ m.byte a

/-- One turn of the write loop: byte lane `k` of `v` goes to `a + k` when mask bit `k` is set (R37). -/
def writeLane (a : Nat) (v : Word) (mask : BitVec 4) (m : Memory) (k : Nat) : Memory :=
  if mask.getLsbD k then m.setByte (a + k) (v.extractLsb' (8 * k) 8) else m

/-- The write loop over all four byte lanes; lanes are never compacted (R37, conflict C1). -/
def writeMasked (m : Memory) (a : Nat) (v : Word) (mask : BitVec 4) : Memory :=
  [0, 1, 2, 3].foldl (writeLane a v mask) m

/-- The fill loop: `v` into `n` consecutive words from `a` on (R41). -/
def fillWords (m : Memory) (a : Nat) (v : Word) : Nat → Memory
  | 0 => m
  | n + 1 => (m.fillWords a v n).writeMasked (a + 4 * n) v 0b1111#4

/-- The `n` consecutive words from `a` on, the content of a dump (R42). -/
def words (m : Memory) (a n : Nat) : List Word := (List.range n).map fun k => m.word (a + 4 * k)

/-! ## The canonical form -/

/-- The memory is in canonical form: listed addresses strictly rise; each is backed (R31); none is listed with the value an
unlisted one reads as. -/
def wf (m : Memory) : Bool :=
  risingFrom 0 m.cells && m.cells.all fun c => decide (c.1 < m.size) && c.2 != Params.unlistedByte

end Memory

end Sys2Proof.Machine
end

