-- ==== Sys2Proof/Machine/Ops.lean ====
section
/-! DEFINITION. The named operations over the state: the register file's ports (R13, R14), the Memory unit's read and write as the core uses them (R35 to R40), the fetch (R93), the commit (R94), taking Break and Fatal (R192, R193) and the one way back, reset (R210). -/

namespace Sys2Proof.Machine.State

/-! ## The register file (R11 to R14) -/

/-- A read port: `x[r]` (R13). There is no special case for `x0`: its cell always holds 0, because the write port
discards writes to it (R12). -/
def readReg (s : State) (r : RegIdx) : Word := s.x[r.toNat]'r.isLt

/-- The write port: `x[r] <- v`, discarded when `r = 0` (R12, R14). -/
def writeReg (s : State) (r : RegIdx) (v : Word) : State :=
  if r = 0#5 then s else { s with x := s.x.set r.toNat v r.isLt }

/-! ## Outputs and memory (R35 to R40) -/

/-- `diag(kind, address)`: one event on the error channel; no architectural state changes (R40). -/
def emit (s : State) (d : Diag) : State := { s with diags := d :: s.diags }

/-- Replace the memory. -/
def setMem (s : State) (m : Memory) : State := { s with mem := m }

/-- `mem_read(a)`: the word at `a`, or 0 with a diagnostic when `a` is misaligned or out of bounds (R35, R36). -/
def memRead (s : State) (a : Word) : Word × State :=
  if s.mem.Valid a then (s.mem.word a.toNat, s) else (0#32, s.emit ⟨.read, a⟩)

/-- `mem_write(a, v, mask)`: the masked write, or a diagnostic and no write (R37, R38). -/
def memWrite (s : State) (a v : Word) (mask : BitVec 4) : State :=
  if s.mem.Valid a then s.setMem (s.mem.writeMasked a.toNat v mask) else s.emit ⟨.write, a⟩

/-! ## Fetch and commit (R93, R94) -/

/-- Replace `ir`. -/
def setIr (s : State) (w : Word) : State := { s with ir := w }

/-- Fetch: read the word at `pc`, unmasked, and write it to `ir` (R92, R93). -/
def fetch (s : State) : Word × State :=
  ((s.memRead s.pc).1, (s.memRead s.pc).2.setIr (s.memRead s.pc).1)

/-- The tentative next address `pc + 4`, modulo 2^32 (R92). -/
def pcPlus4 (s : State) : Word := s.pc + 4#32

/-- Commit: `pc <- next_pc`, and the tick answers `ok` (R94, R95). -/
def commit (s : State) (nextPc : Word) : State := { s with pc := nextPc, lastOutcome := some .ok }

/-! ## Taking an exception, and the way back (R190 to R199) -/

/-- What Break and Fatal have in common: nothing happens to `x`, `mem` or `pc`, the core halts, and the tick answers
`o`. Nothing is saved and control goes nowhere (R192, R193, R198). -/
def halt (s : State) (o : TickOutcome) : State := { s with run := .halted, lastOutcome := some o }

/-- `raise Break` (R192). -/
def raiseBreak (s : State) : State := s.halt .brk

/-- `raise Fatal(opcode, pc)` with `opcode = ir[6:0]` and the `pc` that still points at the word (R190, R193). -/
def raiseFatal (s : State) : State := s.halt (.fatal (opcodeOf s.ir) s.pc)

/-- `reset(entry_pc)`, the only way out of `halted` (R199, R210): every register 0, `pc` the entry address, running,
memory untouched. The value of `ir` afterwards is unspecified (R26, U2), so it is an argument. The record of the last
outcome is cleared and the trace of diagnostics kept (log entries 6 and 7). -/
def hostReset (s : State) (entryPc irAfter : Word) : State :=
  { s with
    x := Vector.replicate Config.nregs 0#32, pc := entryPc, ir := irAfter, run := .running, lastOutcome := none }

end Sys2Proof.Machine.State
end

