-- ==== Sys2Proof/Machine/Operands.lean ====
section
/-! DEFINITION. The operand forms: effective address, aligned base and lane of the load_store_unit, its load and store paths (R105 to R107, R115 to R117), and the shapes the instructions of a family share. -/

namespace Sys2Proof.Machine

/-- The width of a load or store (R105). -/
inductive Width where
  | byte
  | half
  | word
deriving DecidableEq, Repr

/-- Bytes of an access. -/
def Width.bytes : Width → Nat
  | .byte => 1
  | .half => 2
  | .word => 4

/-- Bits of an access. -/
abbrev Width.bits (n : Width) : Nat := 8 * n.bytes

/-- The mask of an access at lane 0 (R116, `ones`). -/
def Width.ones : Width → BitVec 4
  | .byte => 0b0001#4
  | .half => 0b0011#4
  | .word => 0b1111#4

/-- `base = addr & 0xFFFFFFFC` (R105). -/
def alignedBase (addr : Word) : Word := addr &&& 0xFFFFFFFC#32

/-- `lane = addr[1:0]` (R105). -/
def laneOf (addr : Word) : BitVec 2 := addr.extractLsb' 0 2

/-- The mask of a store: `ones << lane`, bits past bit 3 lost (R116). -/
def storeMask (n : Width) (addr : Word) : BitVec 4 := n.ones <<< (laneOf addr).toNat

/-- The lane-shifted value of a store: `v << (8 * lane)`, bits past bit 31 lost (R116). -/
def storeValue (v addr : Word) : Word := v <<< (8 * (laneOf addr).toNat)

/-- Bit 0 of a jump target is cleared: `t & 0xFFFFFFFE` (R130, R131). -/
def clearBit0 (t : Word) : Word := t &&& 0xFFFFFFFE#32

namespace State

/-- `addr = x[rs1] + imm` with a sign-extended 12-bit offset, modulo 2^32 (R105). -/
def effAddr (s : State) (rs1 : RegIdx) (imm : BitVec 12) : Word := s.readReg rs1 + sext12 imm

/-- `MemRead(addr, n)`: the containing word shifted right by its lane, cut to `8n` bits (R106). A word-crossing load
gets zeros for the bytes beyond the word (R107, log entry 11). -/
def loadBits (s : State) (addr : Word) (n : Width) : BitVec n.bits × State :=
  (((s.memRead (alignedBase addr)).1 >>> (8 * (laneOf addr).toNat)).setWidth n.bits,
    (s.memRead (alignedBase addr)).2)

/-- `MemWrite(addr, n, v)`: one masked write to the containing word (R116). The bytes of a word-crossing store beyond
the word are dropped (R117, log entry 11). -/
def storeBits (s : State) (addr : Word) (n : Width) (v : Word) : State :=
  s.memWrite (alignedBase addr) (storeValue v addr) (storeMask n addr)

/-- A load: the address, the load path, the extension, the write of `x[rd]`, `pc + 4` (R98, R108 to R112). -/
def loadReg (s : State) (n : Width) (extend : BitVec n.bits → Word) (rd rs1 : RegIdx) (imm : BitVec 12) : State :=
  ((s.loadBits (s.effAddr rs1 imm) n).2.writeReg rd (extend (s.loadBits (s.effAddr rs1 imm) n).1)).commit s.pcPlus4

/-- A store: the address, the store path, `pc + 4` (R98, R118 to R120). -/
def storeReg (s : State) (n : Width) (rs2 rs1 : RegIdx) (imm : BitVec 12) : State :=
  (s.storeBits (s.effAddr rs1 imm) n (s.readReg rs2)).commit s.pcPlus4

/-- An instruction that writes `x[rd]` and goes on at `next_pc` (R92, R98). -/
def writeAndGo (s : State) (rd : RegIdx) (v nextPc : Word) : State := (s.writeReg rd v).commit nextPc

/-- A branch: to `pc + imm_b` when taken, else to `pc + 4` (R135). -/
def branchTo (s : State) (taken : Bool) (offset : BitVec 13) : State :=
  s.commit (if taken then s.pc + sext13 offset else s.pcPlus4)

end State

end Sys2Proof.Machine
end

