-- ==== Sys2Proof/Machine/AluImm.lean ====
section
/-! DEFINITION. The nine register-immediate ALU instructions (R165 to R174). -/

namespace Sys2Proof.Machine

/-- `x[rd] <- alu(op, x[rs1], imm_i)`, `next_pc = pc + 4` (R165). -/
def State.aluRegImm (s : State) (op : AluOp) (rd rs1 : RegIdx) (imm : BitVec 12) : State :=
  s.writeAndGo rd (alu op (s.readReg rs1) (sext12 imm)) s.pcPlus4

/-- `ADDI rd, rs1, imm` (R166). -/
def execAddi (rd rs1 : RegIdx) (imm : BitVec 12) (s : State) : Host.Outcome State Fault Refusal :=
  .next (s.aluRegImm .add rd rs1 imm)

/-- `SLTI rd, rs1, imm` (R167). -/
def execSlti (rd rs1 : RegIdx) (imm : BitVec 12) (s : State) : Host.Outcome State Fault Refusal :=
  .next (s.aluRegImm .slt rd rs1 imm)

/-- `SLTIU rd, rs1, imm` (R168). -/
def execSltiu (rd rs1 : RegIdx) (imm : BitVec 12) (s : State) : Host.Outcome State Fault Refusal :=
  .next (s.aluRegImm .sltu rd rs1 imm)

/-- `XORI rd, rs1, imm` (R169). -/
def execXori (rd rs1 : RegIdx) (imm : BitVec 12) (s : State) : Host.Outcome State Fault Refusal :=
  .next (s.aluRegImm .xor rd rs1 imm)

/-- `ORI rd, rs1, imm` (R170). -/
def execOri (rd rs1 : RegIdx) (imm : BitVec 12) (s : State) : Host.Outcome State Fault Refusal :=
  .next (s.aluRegImm .or rd rs1 imm)

/-- `ANDI rd, rs1, imm` (R171). -/
def execAndi (rd rs1 : RegIdx) (imm : BitVec 12) (s : State) : Host.Outcome State Fault Refusal :=
  .next (s.aluRegImm .and rd rs1 imm)

/-- The 12-bit immediate of a shift word: `inst[31:25]` above the amount; the alu uses its low 5 bits (R69, R165, R174). -/
def shiftImm (upper : BitVec 7) (shamt : BitVec 5) : BitVec 12 := upper ++ shamt

/-- `SLLI rd, rs1, shamt` (R172). -/
def execSlli (rd rs1 : RegIdx) (shamt : BitVec 5) (s : State) : Host.Outcome State Fault Refusal :=
  .next (s.aluRegImm .sll rd rs1 (shiftImm 0b0000000#7 shamt))

/-- `SRLI rd, rs1, shamt` (R173). -/
def execSrli (rd rs1 : RegIdx) (shamt : BitVec 5) (s : State) : Host.Outcome State Fault Refusal :=
  .next (s.aluRegImm .srl rd rs1 (shiftImm 0b0000000#7 shamt))

/-- `SRAI rd, rs1, shamt` (R174). -/
def execSrai (rd rs1 : RegIdx) (shamt : BitVec 5) (s : State) : Host.Outcome State Fault Refusal :=
  .next (s.aluRegImm .sra rd rs1 (shiftImm 0b0100000#7 shamt))

end Sys2Proof.Machine
end

