-- ==== Sys2Proof/Machine/AluReg.lean ====
section
/-! DEFINITION. The ten register-register ALU instructions (R147 to R157). -/

namespace Sys2Proof.Machine

/-- `x[rd] <- alu(op, x[rs1], x[rs2])`, `next_pc = pc + 4` (R147). -/
def State.aluRegReg (s : State) (op : AluOp) (rd rs1 rs2 : RegIdx) : State :=
  s.writeAndGo rd (alu op (s.readReg rs1) (s.readReg rs2)) s.pcPlus4

/-- `ADD rd, rs1, rs2` (R148). -/
def execAdd (rd rs1 rs2 : RegIdx) (s : State) : Host.Outcome State Fault Refusal :=
  .next (s.aluRegReg .add rd rs1 rs2)

/-- `SUB rd, rs1, rs2` (R149). -/
def execSub (rd rs1 rs2 : RegIdx) (s : State) : Host.Outcome State Fault Refusal :=
  .next (s.aluRegReg .sub rd rs1 rs2)

/-- `SLL rd, rs1, rs2` (R150). -/
def execSll (rd rs1 rs2 : RegIdx) (s : State) : Host.Outcome State Fault Refusal :=
  .next (s.aluRegReg .sll rd rs1 rs2)

/-- `SLT rd, rs1, rs2` (R151). -/
def execSlt (rd rs1 rs2 : RegIdx) (s : State) : Host.Outcome State Fault Refusal :=
  .next (s.aluRegReg .slt rd rs1 rs2)

/-- `SLTU rd, rs1, rs2` (R152). -/
def execSltu (rd rs1 rs2 : RegIdx) (s : State) : Host.Outcome State Fault Refusal :=
  .next (s.aluRegReg .sltu rd rs1 rs2)

/-- `XOR rd, rs1, rs2` (R153). -/
def execXor (rd rs1 rs2 : RegIdx) (s : State) : Host.Outcome State Fault Refusal :=
  .next (s.aluRegReg .xor rd rs1 rs2)

/-- `SRL rd, rs1, rs2` (R154). -/
def execSrl (rd rs1 rs2 : RegIdx) (s : State) : Host.Outcome State Fault Refusal :=
  .next (s.aluRegReg .srl rd rs1 rs2)

/-- `SRA rd, rs1, rs2` (R155). -/
def execSra (rd rs1 rs2 : RegIdx) (s : State) : Host.Outcome State Fault Refusal :=
  .next (s.aluRegReg .sra rd rs1 rs2)

/-- `OR rd, rs1, rs2` (R156). -/
def execOr (rd rs1 rs2 : RegIdx) (s : State) : Host.Outcome State Fault Refusal :=
  .next (s.aluRegReg .or rd rs1 rs2)

/-- `AND rd, rs1, rs2` (R157). -/
def execAnd (rd rs1 rs2 : RegIdx) (s : State) : Host.Outcome State Fault Refusal :=
  .next (s.aluRegReg .and rd rs1 rs2)

end Sys2Proof.Machine
end

