-- ==== Sys2Proof/Machine/Branches.lean ====
section
/-! DEFINITION. The six conditional branches (R135 to R142). None checks its target. -/

namespace Sys2Proof.Machine

/-- `BEQ rs1, rs2, offset`: branch if equal (R136). -/
def execBeq (rs1 rs2 : RegIdx) (offset : BitVec 13) (s : State) : Host.Outcome State Fault Refusal :=
  .next (s.branchTo (Cmp.eq.taken (s.readReg rs1) (s.readReg rs2)) offset)

/-- `BNE rs1, rs2, offset`: branch if not equal (R137). -/
def execBne (rs1 rs2 : RegIdx) (offset : BitVec 13) (s : State) : Host.Outcome State Fault Refusal :=
  .next (s.branchTo (Cmp.ne.taken (s.readReg rs1) (s.readReg rs2)) offset)

/-- `BLT rs1, rs2, offset`: branch if less than, signed (R138). -/
def execBlt (rs1 rs2 : RegIdx) (offset : BitVec 13) (s : State) : Host.Outcome State Fault Refusal :=
  .next (s.branchTo (Cmp.lt.taken (s.readReg rs1) (s.readReg rs2)) offset)

/-- `BGE rs1, rs2, offset`: branch if greater than or equal, signed (R139). -/
def execBge (rs1 rs2 : RegIdx) (offset : BitVec 13) (s : State) : Host.Outcome State Fault Refusal :=
  .next (s.branchTo (Cmp.ge.taken (s.readReg rs1) (s.readReg rs2)) offset)

/-- `BLTU rs1, rs2, offset`: branch if less than, unsigned (R140). -/
def execBltu (rs1 rs2 : RegIdx) (offset : BitVec 13) (s : State) : Host.Outcome State Fault Refusal :=
  .next (s.branchTo (Cmp.ltu.taken (s.readReg rs1) (s.readReg rs2)) offset)

/-- `BGEU rs1, rs2, offset`: branch if greater than or equal, unsigned (R141). -/
def execBgeu (rs1 rs2 : RegIdx) (offset : BitVec 13) (s : State) : Host.Outcome State Fault Refusal :=
  .next (s.branchTo (Cmp.geu.taken (s.readReg rs1) (s.readReg rs2)) offset)

end Sys2Proof.Machine
end

