-- ==== Sys2Proof/Machine/Jumps.lean ====
section
/-! DEFINITION. JAL and JALR (R130 to R132). Neither checks its target. -/

namespace Sys2Proof.Machine

/-- `JAL rd, offset`: the link to `x[rd]`, then to `(pc + imm_j) & 0xFFFFFFFE` (R130). -/
def execJal (rd : RegIdx) (offset : BitVec 21) (s : State) : Host.Outcome State Fault Refusal :=
  .next (s.writeAndGo rd s.pcPlus4 (clearBit0 (s.pc + sext21 offset)))

/-- `JALR rd, imm(rs1)`: the link to `x[rd]`, then to `(x[rs1] + imm_i) & 0xFFFFFFFE`, with `x[rs1]` as it was before
the instruction, also when `rd = rs1` (R131, decision D6, log entry 12). -/
def execJalr (rd rs1 : RegIdx) (imm : BitVec 12) (s : State) : Host.Outcome State Fault Refusal :=
  .next (s.writeAndGo rd s.pcPlus4 (clearBit0 (s.effAddr rs1 imm)))

end Sys2Proof.Machine
end

