-- ==== Sys2Proof/Machine/Loads.lean ====
section
/-! DEFINITION. The loads LB, LH, LW, LBU, LHU (R108 to R113). -/

namespace Sys2Proof.Machine

/-- `LB rd, imm(rs1)`: load byte, sign-extended (R108). -/
def execLb (rd rs1 : RegIdx) (imm : BitVec 12) (s : State) : Host.Outcome State Fault Refusal :=
  .next (s.loadReg .byte (fun v => v.signExtend 32) rd rs1 imm)

/-- `LH rd, imm(rs1)`: load halfword, sign-extended (R109). -/
def execLh (rd rs1 : RegIdx) (imm : BitVec 12) (s : State) : Host.Outcome State Fault Refusal :=
  .next (s.loadReg .half (fun v => v.signExtend 32) rd rs1 imm)

/-- `LW rd, imm(rs1)`: load word; the 32 bits as they are (R110). -/
def execLw (rd rs1 : RegIdx) (imm : BitVec 12) (s : State) : Host.Outcome State Fault Refusal :=
  .next (s.loadReg .word (fun v => v.setWidth 32) rd rs1 imm)

/-- `LBU rd, imm(rs1)`: load byte, zero-extended (R111). -/
def execLbu (rd rs1 : RegIdx) (imm : BitVec 12) (s : State) : Host.Outcome State Fault Refusal :=
  .next (s.loadReg .byte (fun v => v.setWidth 32) rd rs1 imm)

/-- `LHU rd, imm(rs1)`: load halfword, zero-extended (R112). -/
def execLhu (rd rs1 : RegIdx) (imm : BitVec 12) (s : State) : Host.Outcome State Fault Refusal :=
  .next (s.loadReg .half (fun v => v.setWidth 32) rd rs1 imm)

end Sys2Proof.Machine
end

