-- ==== Sys2Proof/Machine/Stores.lean ====
section
/-! DEFINITION. The stores SB, SH, SW (R118 to R121). -/

namespace Sys2Proof.Machine

/-- `SB rs2, imm(rs1)`: store byte (R118). -/
def execSb (rs2 rs1 : RegIdx) (imm : BitVec 12) (s : State) : Host.Outcome State Fault Refusal :=
  .next (s.storeReg .byte rs2 rs1 imm)

/-- `SH rs2, imm(rs1)`: store halfword (R119). -/
def execSh (rs2 rs1 : RegIdx) (imm : BitVec 12) (s : State) : Host.Outcome State Fault Refusal :=
  .next (s.storeReg .half rs2 rs1 imm)

/-- `SW rs2, imm(rs1)`: store word (R120). -/
def execSw (rs2 rs1 : RegIdx) (imm : BitVec 12) (s : State) : Host.Outcome State Fault Refusal :=
  .next (s.storeReg .word rs2 rs1 imm)

end Sys2Proof.Machine
end

