-- ==== Sys2Proof/Machine/SystemOps.lean ====
section
/-! DEFINITION. The System group: EBREAK and the ignored words (R180 to R183). -/

namespace Sys2Proof.Machine

/-- `EBREAK`: raise Break; the core halts with status -1 and `pc` still on the instruction (R181, R192). -/
def execEbreak (s : State) : Host.Outcome State Fault Refusal :=
  .next s.raiseBreak

/-- Every other SYSTEM word (ECALL, the CSR instructions, MRET, WFI among them) only advances `pc`; none of its fields
is used (R182). -/
def execSystemIgnored (_imm : BitVec 12) (_rs1 : RegIdx) (_funct3 : BitVec 3) (_rd : RegIdx) (s : State) :
    Host.Outcome State Fault Refusal :=
  .next (s.commit s.pcPlus4)

end Sys2Proof.Machine
end

