-- ==== Sys2Proof/Machine/UpperImmediate.lean ====
section
/-! DEFINITION. LUI and AUIPC (R125, R126). -/

namespace Sys2Proof.Machine

/-- `LUI rd, imm20`: `x[rd] <- imm_u` (R125). -/
def execLui (rd : RegIdx) (imm : BitVec 20) (s : State) : Host.Outcome State Fault Refusal :=
  .next (s.writeAndGo rd (upper20 imm) s.pcPlus4)

/-- `AUIPC rd, imm20`: `x[rd] <- pc + imm_u`, `pc` the instruction's own address (R126). -/
def execAuipc (rd : RegIdx) (imm : BitVec 20) (s : State) : Host.Outcome State Fault Refusal :=
  .next (s.writeAndGo rd (s.pc + upper20 imm) s.pcPlus4)

end Sys2Proof.Machine
end

