-- ==== Sys2Proof/Machine/Tick.lean ====
section
/-! DEFINITION. One tick (R90 to R98): fetch, decode, execute, and what a word that spells no instruction does (R77, R78, R184). -/

namespace Sys2Proof.Machine

/-- A reserved sub-encoding, under a policy (R77, decision D8): fatal, or advance `pc` by 4 and write nothing. -/
def reservedSubop (policy : Config.ReservedSubopPolicy) (s : State) : State :=
  match policy with
  | .fatal => s.raiseFatal
  | .nop => s.commit s.pcPlus4

/-- Stages 2 to 4 of a tick: decode the fetched word and execute it (R92). `ir` already holds the word. -/
def executeWord (policy : Config.ReservedSubopPolicy) (w : Word) (s : State) : Host.Outcome State Fault Refusal :=
  match decode w with
  | .instr i => exec i s
  | .reservedSubop => .next (reservedSubop policy s)
  | .illegalOpcode => .next s.raiseFatal

/-- A tick under a reserved-sub-encoding policy (R91, R92). A halted core has no step (R200). -/
def tickUnder (policy : Config.ReservedSubopPolicy) (s : State) : Host.Outcome State Fault Refusal :=
  match s.run with
  | .running => executeWord policy s.fetch.1 s.fetch.2
  | .halted => .fault .tickWhileHalted

/-- The tick, under the policy the spec decides on (R5, R92). -/
def tick (s : State) : Host.Outcome State Fault Refusal := tickUnder Params.reservedSubopPolicy s

/-- `s` with the word `w` at `pc` and the core running, so that the next tick fetches `w` (when `pc` is valid). -/
def placeWord (s : State) (w : Word) : State :=
  { s with run := .running, mem := s.mem.writeMasked s.pc.toNat w 0b1111#4 }

end Sys2Proof.Machine
end

