-- ==== Sys2Proof/Machine/Step.lean ====
section
/-! DEFINITION. The step function: one tick of the core (R92). -/

namespace Sys2Proof.Machine

/-- One step of the machine is one tick (R6, R92). -/
def step (s : State) : Host.Outcome State Fault Refusal := tick s

/-- `s` with the instruction of `nbits` bits `w` stored where the next step fetches, little-endian at `pc` (R33, R93).
It stands for the host's loader (log entry 13). -/
def State.withFetchWord (s : State) (nbits w : Nat) : State := placeWord s (BitVec.ofNat 32 (w % 2 ^ nbits))

end Sys2Proof.Machine
end

