-- ==== Sys2Proof/Machine/HostMoves.lean ====
section
/-! DEFINITION. Launching a machine (R32, R213), what the host can do to the core between two ticks (R214 to R216), fill and dump among them (R41, R42), and the host's image loader over lines already parsed (R217). -/

namespace Sys2Proof.Machine

namespace State

/-- `fill(a, n, v)`: all `n` words, or nothing and a diagnostic when the span is not valid (R41). -/
def fill (s : State) (a : Word) (n : Nat) (v : Word) : State :=
  if s.mem.ValidSpan a n then s.setMem (s.mem.fillWords a.toNat v n) else s.emit ⟨.fill, a⟩

/-- `dump(a, n)`: the listing's words, or no listing and a diagnostic when the span is not valid (R42). -/
def dump (s : State) (a : Word) (n : Nat) : Option (List Word) × State :=
  if s.mem.ValidSpan a n then (some (s.mem.words a.toNat n), s) else (none, s.emit ⟨.dump, a⟩)

end State

/-- Boot of a machine with `size` bytes of memory (R213): construct the memory, reset to the entry address. There is no
machine when the construction fails (R32). What the host places in memory comes between the two or after them. -/
def launch (size : Nat) (entryPc irAfter : Word) : Option State :=
  (Memory.construct size).map fun m => ({ State.reset with mem := m }).hostReset entryPc irAfter

/-- The integer the host reads from a tick: 0, -1, or none for fatal (R95, R195, decisions D12 and D15). -/
def TickOutcome.status : TickOutcome → Option Int
  | .ok => some 0
  | .brk => some (-1)
  | .fatal _ _ => none

/-- The host's moves (R214); ceasing to tick is the absence of one. -/
inductive HostMove where
  | tick
  /-- `reset(entry_pc)`; `irAfter` is the value `ir` happens to have afterwards (R26, U2). -/
  | reset (entryPc irAfter : Word)
  /-- Read `pc`, `ir` and the registers (R215). -/
  | inspect
  | read (a : Word)
  | write (a v : Word) (mask : BitVec 4)
  | fill (a : Word) (n : Nat) (v : Word)
  | dump (a : Word) (n : Nat)
deriving DecidableEq, Repr

/-- What a move returns to the host. -/
inductive HostAnswer where
  | nothing
  | outcome (o : Option TickOutcome)
  | inspection (pc ir : Word) (x : Vector Word Config.nregs)
  | word (w : Word)
  | listing (ws : Option (List Word))
deriving DecidableEq, Repr

/-- A move of the host: what it returns, and the state after it (R214 to R216). Only a tick can stop. -/
def hostMove (m : HostMove) (s : State) : Host.Outcome (HostAnswer × State) Fault Refusal :=
  match m with
  | .tick =>
    match step s with
    | .next t => .next (.outcome t.lastOutcome, t)
    | .fault f => .fault f
    | .refused r => .refused r
  | .reset entryPc irAfter => .next (.nothing, s.hostReset entryPc irAfter)
  | .inspect => .next (.inspection s.pc s.ir s.x, s)
  | .read a => .next (.word (s.memRead a).1, (s.memRead a).2)
  | .write a v mask => .next (.nothing, s.memWrite a v mask)
  | .fill a n v => .next (.nothing, s.fill a n v)
  | .dump a n => .next (.listing (s.dump a n).1, (s.dump a n).2)

/-- A line of a program image, after parsing (R217): an address directive, a word, or a blank line. -/
inductive ImageLine where
  | at (cursor : Word)
  | word (w : Word)
  | blank
deriving DecidableEq, Repr

/-- The image loader from a cursor on: each word is a full aligned store at the cursor, which then advances by 4 (R217,
log entry 14). -/
def loadFrom (cursor : Word) : List ImageLine → State → State
  | [], s => s
  | .at a :: rest, s => loadFrom a rest s
  | .word w :: rest, s => loadFrom (cursor + 4#32) rest (s.memWrite cursor w 0b1111#4)
  | .blank :: rest, s => loadFrom cursor rest s

/-- The image loader; the cursor starts at 0 (R217). -/
def loadImage (lines : List ImageLine) (s : State) : State := loadFrom 0#32 lines s

end Sys2Proof.Machine
end

