-- ==== Sys2Proof/Safety.lean ====
section
/-! DEFINITION. What claims about runs are stated in: the invariants of the machine, and a run until the first tick that is not `ok`, with its endings (R218). -/

namespace Sys2Proof.Machine

/-! ## Invariants -/

/-- The zero register holds 0 (R12) and the memory is in canonical form. (That its size is one the spec admits, R32, is in its
type.) -/
def State.Inv (s : State) : Prop := s.readReg 0#5 = 0#32 ∧ s.mem.wf = true

/-- The record of the last tick agrees with the halted state it describes (R95, R190): running after `ok` or before any
tick; halted on the breakpoint word after Break; halted with the opcode and `pc` of the offending word after Fatal. -/
def State.OutcomeAgrees (s : State) : Prop :=
  match s.lastOutcome with
  | none => s.run = .running
  | some .ok => s.run = .running
  | some .brk => s.run = .halted ∧ s.ir = ebreakWord
  | some (.fatal opcode pc) => s.run = .halted ∧ opcode = opcodeOf s.ir ∧ pc = s.pc

/-- `pc` is even (R132, R142). -/
def State.PcEven (s : State) : Prop := s.pc.toNat % 2 = 0

/-! ## Runs (R218) -/

/-- A run from `s` as far as `fuel` ticks take it: the state after the first tick whose outcome is not `ok`, or `none`
when every one of the ticks was `ok`. A core that is halted at the start has no run (R200): `none`. -/
def runToHalt : Nat → State → Option State
  | 0, _ => none
  | fuel + 1, s =>
    match step s with
    | .next t =>
      match t.run with
      | .running => runToHalt fuel t
      | .halted => some t
    | .fault _ => none
    | .refused _ => none

/-- The run from `s` ends normally in `t`: its first tick that is not `ok` is Break (R218). -/
def EndsNormally (s t : State) : Prop := ∃ fuel, runToHalt fuel s = some t ∧ t.lastOutcome = some .brk

/-- The run from `s` ends in error in `t`: its first tick that is not `ok` is Fatal (R218). -/
def EndsInError (s t : State) : Prop :=
  ∃ fuel opcode pc, runToHalt fuel s = some t ∧ t.lastOutcome = some (.fatal opcode pc)

end Sys2Proof.Machine
end

