-- ==== Sys2Proof/Certificates/Slice0/Obligations.lean ====
section
/-! DEFINITION. The statements for the provers, and before them the shared shapes they are written in. Results are written with naturals and integers (sums, quotients, powers of two), not with the operations the meanings call; encodings are written as the concatenations of rules R62 to R67. -/

namespace Sys2Proof.Claims

open Sys2Proof.Machine

/-! ## What stays, and what a commit does -/

/-- Every register reads as before. -/
def SameRegs (s t : State) : Prop := ∀ q, t.readReg q = s.readReg q

/-- Register `rd` holds `v`, unless it is `x0`, which keeps what it held; every other register reads as before. -/
def RegWritten (s t : State) (rd : RegIdx) (v : Word) : Prop :=
  ∀ q, t.readReg q = if q = rd ∧ rd ≠ 0#5 then v else s.readReg q

/-- The memory has the size it had and every byte reads as before. -/
def SameMemory (s t : State) : Prop := t.mem.size = s.mem.size ∧ ∀ a, t.mem.byte a = s.mem.byte a

/-- The tick is `ok` and the next instruction is at `nextPc`; `ir` and `run` are as before. -/
def CommitsAt (s t : State) (nextPc : Word) : Prop :=
  t.pc = nextPc ∧ t.ir = s.ir ∧ t.run = s.run ∧ t.lastOutcome = some .ok

/-- `pc + 4`, modulo 2^32. -/
def nextWord (s : State) : Word := BitVec.ofNat 32 (s.pc.toNat + 4)

/-- The instruction writes `v` to `rd`, goes on at `nextPc`, and does nothing else. -/
def RegResult (s t : State) (rd : RegIdx) (v nextPc : Word) : Prop :=
  RegWritten s t rd v ∧ CommitsAt s t nextPc ∧ SameMemory s t ∧ t.diags = s.diags

/-- A register-register instruction: its word, and its effect on every state (R62, R147). -/
def RegRegRule (mk : RegIdx → RegIdx → RegIdx → Instr) (funct7 : BitVec 7) (funct3 : BitVec 3)
    (f : Word → Word → Word) : Prop :=
  ∀ (rd rs1 rs2 : RegIdx) (s : State),
    decode (funct7 ++ rs2 ++ rs1 ++ funct3 ++ rd ++ 0b0110011#7) = .instr (mk rd rs1 rs2) ∧
    ∃ t, exec (mk rd rs1 rs2) s = .next t ∧ RegResult s t rd (f (s.readReg rs1) (s.readReg rs2)) (nextWord s)

/-- A register-immediate instruction with a 12-bit immediate, which is sign-extended (R63, R165). -/
def RegImmRule (mk : RegIdx → RegIdx → BitVec 12 → Instr) (funct3 : BitVec 3) (f : Word → Word → Word) : Prop :=
  ∀ (rd rs1 : RegIdx) (imm : BitVec 12) (s : State),
    decode (imm ++ rs1 ++ funct3 ++ rd ++ 0b0010011#7) = .instr (mk rd rs1 imm) ∧
    ∃ t, exec (mk rd rs1 imm) s = .next t ∧
      RegResult s t rd (f (s.readReg rs1) (BitVec.ofInt 32 imm.toInt)) (nextWord s)

/-- A shift by an immediate amount (R69, R165). -/
def ShiftImmRule (mk : RegIdx → RegIdx → BitVec 5 → Instr) (funct7 : BitVec 7) (funct3 : BitVec 3)
    (f : Word → Nat → Word) : Prop :=
  ∀ (rd rs1 : RegIdx) (shamt : BitVec 5) (s : State),
    decode (funct7 ++ shamt ++ rs1 ++ funct3 ++ rd ++ 0b0010011#7) = .instr (mk rd rs1 shamt) ∧
    ∃ t, exec (mk rd rs1 shamt) s = .next t ∧ RegResult s t rd (f (s.readReg rs1) shamt.toNat) (nextWord s)

/-! ## Loads, stores, branches -/

/-- The word containing the byte address `addr` is backed by memory. -/
abbrev Backed (m : Memory) (addr : Word) : Prop := addr.toNat - addr.toNat % 4 + 4 ≤ m.size

/-- What byte `j` of an access of `n` bytes contributes to a loaded value: `mem[addr + j]` at its place, or nothing when
the access has no such byte or the byte lies beyond the containing word (R106, R107). -/
def byteTerm (m : Memory) (addr : Word) (n j : Nat) : Nat :=
  if j < n ∧ addr.toNat % 4 + j ≤ 3 then (m.byte (addr.toNat + j)).toNat * 256 ^ j else 0

/-- The value of a load of `n` bytes, as a number: the bytes of the access that lie in the containing word, little-endian,
with nothing for the bytes beyond it; 0 when the word is not backed (R106, R107, R113). -/
def loadedNat (m : Memory) (addr : Word) (n : Nat) : Nat :=
  if Backed m addr then byteTerm m addr n 0 + byteTerm m addr n 1 + byteTerm m addr n 2 + byteTerm m addr n 3 else 0

/-- `v` read as an `8n`-bit two's-complement number, as a register value. -/
def signedBytes (n v : Nat) : Word := BitVec.ofInt 32 (Int.bmod v (256 ^ n))

/-- `v` as a register value. -/
def unsignedBytes (_n v : Nat) : Word := BitVec.ofNat 32 v

/-- The diagnostics after one data access: none added when the containing word is backed, else one that names the aligned
base (R113, R121). -/
def DataDiag (s t : State) (kind : DiagKind) (addr : Word) : Prop :=
  t.diags = if Backed s.mem addr then s.diags
    else ⟨kind, BitVec.ofNat 32 (addr.toNat - addr.toNat % 4)⟩ :: s.diags

/-- The effective address is the sum, modulo 2^32, of the base register and the signed offset (R105). -/
def AddressIs (s : State) (rs1 : RegIdx) (imm : BitVec 12) : Prop :=
  s.effAddr rs1 imm = BitVec.ofInt 32 ((s.readReg rs1).toNat + imm.toInt)

/-- A load of `n` bytes: its word, and its effect on every state (R63, R71, R106 to R113). -/
def LoadRule (mk : RegIdx → RegIdx → BitVec 12 → Instr) (funct3 : BitVec 3) (n : Nat) (extend : Nat → Nat → Word) : Prop :=
  ∀ (rd rs1 : RegIdx) (imm : BitVec 12) (s : State),
    decode (imm ++ rs1 ++ funct3 ++ rd ++ 0b0000011#7) = .instr (mk rd rs1 imm) ∧ AddressIs s rs1 imm ∧
    ∃ t, exec (mk rd rs1 imm) s = .next t ∧
      RegWritten s t rd (extend n (loadedNat s.mem (s.effAddr rs1 imm) n)) ∧ CommitsAt s t (nextWord s) ∧
      SameMemory s t ∧ DataDiag s t .read (s.effAddr rs1 imm)

/-- A store of `n` bytes: its word, and its effect on every state, every byte of memory included: the bytes of the access
that lie in the containing word are stored when that word is backed, and no other byte changes (R64, R72, R116 to R121). -/
def StoreRule (mk : RegIdx → RegIdx → BitVec 12 → Instr) (funct3 : BitVec 3) (n : Nat) : Prop :=
  ∀ (rs2 rs1 : RegIdx) (imm : BitVec 12) (s : State),
    decode (imm.extractLsb' 5 7 ++ rs2 ++ rs1 ++ funct3 ++ imm.extractLsb' 0 5 ++ 0b0100011#7)
      = .instr (mk rs2 rs1 imm) ∧ AddressIs s rs1 imm ∧
    ∃ t, exec (mk rs2 rs1 imm) s = .next t ∧ SameRegs s t ∧ CommitsAt s t (nextWord s) ∧
      t.mem.size = s.mem.size ∧ DataDiag s t .write (s.effAddr rs1 imm) ∧
      ∀ a, t.mem.byte a =
        if Backed s.mem (s.effAddr rs1 imm) ∧ (s.effAddr rs1 imm).toNat ≤ a ∧ a < (s.effAddr rs1 imm).toNat + n
            ∧ a / 4 = (s.effAddr rs1 imm).toNat / 4
        then BitVec.ofNat 8 ((s.readReg rs2).toNat / 256 ^ (a - (s.effAddr rs1 imm).toNat))
        else s.mem.byte a

/-- Where a branch leaves `pc`: at the offset from its own address when taken, else at `pc + 4` (R135). -/
def branchPc (s : State) (offset : BitVec 13) (taken : Bool) : Word :=
  if taken then BitVec.ofInt 32 (s.pc.toNat + offset.toInt) else nextWord s

/-- A conditional branch: its word for every even offset, and its effect on every state (R65, R73, R135). -/
def BranchRule (mk : RegIdx → RegIdx → BitVec 13 → Instr) (funct3 : BitVec 3) (cond : Word → Word → Bool) : Prop :=
  ∀ (rs1 rs2 : RegIdx) (offset : BitVec 13) (s : State),
    (offset.toNat % 2 = 0 →
      decode (offset.extractLsb' 12 1 ++ offset.extractLsb' 5 6 ++ rs2 ++ rs1 ++ funct3 ++ offset.extractLsb' 1 4
        ++ offset.extractLsb' 11 1 ++ 0b1100011#7) = .instr (mk rs1 rs2 offset)) ∧
    ∃ t, exec (mk rs1 rs2 offset) s = .next t ∧ SameRegs s t ∧ SameMemory s t ∧ t.diags = s.diags ∧
      CommitsAt s t (branchPc s offset (cond (s.readReg rs1) (s.readReg rs2)))

/-! ## Whole-machine vocabulary -/

/-- The ten recognised opcodes (R70). -/
def recognisedOpcodes : List Nat :=
  [0b0000011, 0b0100011, 0b0110111, 0b0010111, 0b1101111, 0b1100111, 0b1100011, 0b0110011, 0b0010011, 0b1110011]

/-- The list of rule R77, in numbers: opcode, funct3, `inst[31:25]`. -/
def reservedList (op f3 f7 : Nat) : Prop :=
  (op = 0b0000011 ∧ (f3 = 3 ∨ f3 = 6 ∨ f3 = 7)) ∨
  (op = 0b0100011 ∧ (f3 = 3 ∨ f3 = 4 ∨ f3 = 5 ∨ f3 = 6 ∨ f3 = 7)) ∨
  (op = 0b1100011 ∧ (f3 = 2 ∨ f3 = 3)) ∨
  (op = 0b1100111 ∧ f3 ≠ 0) ∨
  (op = 0b0110011 ∧ ((f7 ≠ 0 ∧ f7 ≠ 0b0100000) ∨ (f7 = 0b0100000 ∧ f3 ≠ 0 ∧ f3 ≠ 5))) ∨
  (op = 0b0010011 ∧ ((f3 = 1 ∧ f7 ≠ 0) ∨ (f3 = 5 ∧ f7 ≠ 0 ∧ f7 ≠ 0b0100000)))

/-- The register an instruction may write: the instructions of rule R14's list, and no other. -/
def destination : Instr → Option RegIdx
  | .lb rd _ _ | .lh rd _ _ | .lw rd _ _ | .lbu rd _ _ | .lhu rd _ _ => some rd
  | .lui rd _ | .auipc rd _ | .jal rd _ | .jalr rd _ _ => some rd
  | .add rd _ _ | .sub rd _ _ | .sll rd _ _ | .slt rd _ _ | .sltu rd _ _ => some rd
  | .xor rd _ _ | .srl rd _ _ | .sra rd _ _ | .or rd _ _ | .and rd _ _ => some rd
  | .addi rd _ _ | .slti rd _ _ | .sltiu rd _ _ | .xori rd _ _ | .ori rd _ _ | .andi rd _ _ => some rd
  | .slli rd _ _ | .srli rd _ _ | .srai rd _ _ => some rd
  | .sb _ _ _ | .sh _ _ _ | .sw _ _ _ => none
  | .beq _ _ _ | .bne _ _ _ | .blt _ _ _ | .bge _ _ _ | .bltu _ _ _ | .bgeu _ _ _ => none
  | .ebreak | .systemIgnored _ _ _ _ => none

/-- The address a store writes to, by its own operands; none for every other instruction. -/
def storeAddress (s : State) : Instr → Option Word
  | .sb _ rs1 imm | .sh _ rs1 imm | .sw _ rs1 imm => some (s.effAddr rs1 imm)
  | .lb _ _ _ | .lh _ _ _ | .lw _ _ _ | .lbu _ _ _ | .lhu _ _ _ => none
  | .lui _ _ | .auipc _ _ | .jal _ _ | .jalr _ _ _ => none
  | .add _ _ _ | .sub _ _ _ | .sll _ _ _ | .slt _ _ _ | .sltu _ _ _ => none
  | .xor _ _ _ | .srl _ _ _ | .sra _ _ _ | .or _ _ _ | .and _ _ _ => none
  | .addi _ _ _ | .slti _ _ _ | .sltiu _ _ _ | .xori _ _ _ | .ori _ _ _ | .andi _ _ _ => none
  | .slli _ _ _ | .srli _ _ _ | .srai _ _ _ => none
  | .beq _ _ _ | .bne _ _ _ | .blt _ _ _ | .bge _ _ _ | .bltu _ _ _ | .bgeu _ _ _ => none
  | .ebreak | .systemIgnored _ _ _ _ => none

/-- The address a load reads from, by its own operands; none for every other instruction. -/
def loadAddress (s : State) : Instr → Option Word
  | .lb _ rs1 imm | .lh _ rs1 imm | .lw _ rs1 imm | .lbu _ rs1 imm | .lhu _ rs1 imm => some (s.effAddr rs1 imm)
  | .sb _ _ _ | .sh _ _ _ | .sw _ _ _ => none
  | .lui _ _ | .auipc _ _ | .jal _ _ | .jalr _ _ _ => none
  | .add _ _ _ | .sub _ _ _ | .sll _ _ _ | .slt _ _ _ | .sltu _ _ _ => none
  | .xor _ _ _ | .srl _ _ _ | .sra _ _ _ | .or _ _ _ | .and _ _ _ => none
  | .addi _ _ _ | .slti _ _ _ | .sltiu _ _ _ | .xori _ _ _ | .ori _ _ _ | .andi _ _ _ => none
  | .slli _ _ _ | .srli _ _ _ | .srai _ _ _ => none
  | .beq _ _ _ | .bne _ _ _ | .blt _ _ _ | .bge _ _ _ | .bltu _ _ _ | .bgeu _ _ _ => none
  | .ebreak | .systemIgnored _ _ _ _ => none

/-- Where an instruction leaves `pc`, from the state before the tick: the table of rule R16. -/
def pcAfter (s : State) : Instr → Word
  | .beq rs1 rs2 offset => branchPc s offset (decide (s.readReg rs1 = s.readReg rs2))
  | .bne rs1 rs2 offset => branchPc s offset (decide (s.readReg rs1 ≠ s.readReg rs2))
  | .blt rs1 rs2 offset => branchPc s offset (decide ((s.readReg rs1).toInt < (s.readReg rs2).toInt))
  | .bge rs1 rs2 offset => branchPc s offset (decide ((s.readReg rs1).toInt ≥ (s.readReg rs2).toInt))
  | .bltu rs1 rs2 offset => branchPc s offset (decide ((s.readReg rs1).toNat < (s.readReg rs2).toNat))
  | .bgeu rs1 rs2 offset => branchPc s offset (decide ((s.readReg rs1).toNat ≥ (s.readReg rs2).toNat))
  | .jal _ offset => BitVec.ofInt 32 (2 * ((s.pc.toNat + offset.toInt) / 2))
  | .jalr _ rs1 imm => BitVec.ofInt 32 (2 * (((s.readReg rs1).toNat + imm.toInt) / 2))
  | .ebreak => s.pc
  | .lb _ _ _ | .lh _ _ _ | .lw _ _ _ | .lbu _ _ _ | .lhu _ _ _ | .sb _ _ _ | .sh _ _ _ | .sw _ _ _ => nextWord s
  | .lui _ _ | .auipc _ _ => nextWord s
  | .add _ _ _ | .sub _ _ _ | .sll _ _ _ | .slt _ _ _ | .sltu _ _ _ => nextWord s
  | .xor _ _ _ | .srl _ _ _ | .sra _ _ _ | .or _ _ _ | .and _ _ _ => nextWord s
  | .addi _ _ _ | .slti _ _ _ | .sltiu _ _ _ | .xori _ _ _ | .ori _ _ _ | .andi _ _ _ => nextWord s
  | .slli _ _ _ | .srli _ _ _ | .srai _ _ _ | .systemIgnored _ _ _ _ => nextWord s

/-- The word the fetch returns: the word at `pc` when the contract admits it, else 0 (R36, R93, R97). -/
def fetchedWord (s : State) : Word := if s.mem.Valid s.pc then s.mem.word s.pc.toNat else 0#32

/-- Two states whose registers, `pc`, run state and memory are the same; `ir` and the output records may differ. -/
def AgreeButOutputs (s s' : State) : Prop := s.x = s'.x ∧ s.pc = s'.pc ∧ s.run = s'.run ∧ s.mem = s'.mem

/-- Registers, `pc` and memory are as before the tick, and the core is halted. -/
def HaltsInPlace (s t : State) : Prop :=
  SameRegs s t ∧ SameMemory s t ∧ t.pc = s.pc ∧ t.run = .halted

end Sys2Proof.Claims

open Sys2Proof Sys2Proof.Machine Sys2Proof.Claims

/-! ## Reset and the register file -/

/-- What `reset(entry_pc)` leaves, in either run state and for every value `ir` may have afterwards (R26): registers, `pc` and
run state as R210 says, memory as it was (R211). That the record of the last outcome is cleared and the diagnostics emitted so
far stay listed are the model's choices (log entries 6 and 7). Reset does not check the entry address: from a bad one the first
tick ends Fatal with opcode 0 (R97, which the spec marks as derived; the form of Fatal is its decision D12, log entry 6). -/
def Obligations.HostResetLeavesResetValues : Prop :=
  ∀ (s : State) (entryPc irAfter : Word),
    (∀ q, (s.hostReset entryPc irAfter).readReg q = 0#32) ∧ (s.hostReset entryPc irAfter).pc = entryPc ∧
    (s.hostReset entryPc irAfter).run = .running ∧ (s.hostReset entryPc irAfter).mem = s.mem ∧
    (s.hostReset entryPc irAfter).ir = irAfter ∧ (s.hostReset entryPc irAfter).lastOutcome = none ∧
    (s.hostReset entryPc irAfter).diags = s.diags ∧
    (¬ s.mem.Valid entryPc → ∃ t, step (s.hostReset entryPc irAfter) = .next t ∧
      t.lastOutcome = some (.fatal 0#7 entryPc) ∧ t.run = .halted)

/-- The state after reset: registers 0 and running, as R26 says. That `pc` and `ir` are 0, that the memory has 2^32 bytes
and that every one of them reads as 0 are the model's choices (log entries 1 to 4), not the spec's; the last two fields are the
model's own records (log entries 6 and 7). -/
def Obligations.ResetStateHasResetValues : Prop :=
  (∀ q, State.reset.readReg q = 0#32) ∧ State.reset.run = .running ∧ State.reset.pc = 0#32 ∧
  State.reset.ir = 0#32 ∧ State.reset.mem.size = 2 ^ 32 ∧ (∀ a, State.reset.mem.byte a = 0#8) ∧
  State.reset.lastOutcome = none ∧ State.reset.diags = []

/-- There is a machine for every `MEM_SIZE` the spec admits and for no other size (R32); it launches running, with memory of
that size. Its state at launch, and `State.reset`, meet the invariants the machine keeps (`PcEven` from an even entry address).
`State.reset` is one such launch state, that of log entries 1 to 3. -/
def Obligations.ResetStateMeetsInvariants : Prop :=
  State.reset.Inv ∧ State.reset.OutcomeAgrees ∧ State.reset.PcEven ∧
  launch (2 ^ 32) 0#32 0#32 = some State.reset ∧
  ∀ (size : Nat) (entryPc irAfter : Word),
    (size % 4 = 0 ∧ size ≤ 2 ^ 32 → ∃ s, launch size entryPc irAfter = some s ∧ s.mem.size = size ∧ s.pc = entryPc ∧
      s.run = .running ∧ s.Inv ∧ s.OutcomeAgrees ∧ (entryPc.toNat % 2 = 0 → s.PcEven)) ∧
    (¬ (size % 4 = 0 ∧ size ≤ 2 ^ 32) → launch size entryPc irAfter = none)

/-- The property that the last sentence of R14 quotes: a write to `r` other than 0 is read back from `r` and from no other register; a write to
register 0 changes nothing at all. -/
def Obligations.RegisterWriteThenRead : Prop :=
  (∀ (s : State) (r : RegIdx) (v : Word), r ≠ 0#5 →
    (s.writeReg r v).readReg r = v ∧ ∀ q, q ≠ r → (s.writeReg r v).readReg q = s.readReg q) ∧
  ∀ (s : State) (v : Word), s.writeReg 0#5 v = s

/-! ## The Memory unit -/

/-- R35: a read of a valid address (R34) is the little-endian sum of its four bytes and changes nothing; of any other
address it is 0, with one diagnostic. -/
def Obligations.MemReadFollowsContract : Prop :=
  ∀ (s : State) (a : Word),
    (a.toNat % 4 = 0 ∧ a.toNat + 4 ≤ s.mem.size →
      (s.memRead a).2 = s ∧
      (s.memRead a).1.toNat = (s.mem.byte a.toNat).toNat + 256 * (s.mem.byte (a.toNat + 1)).toNat
        + 65536 * (s.mem.byte (a.toNat + 2)).toNat + 16777216 * (s.mem.byte (a.toNat + 3)).toNat) ∧
    (¬ (a.toNat % 4 = 0 ∧ a.toNat + 4 ≤ s.mem.size) →
      (s.memRead a).1 = 0#32 ∧ (s.memRead a).2 = { s with diags := ⟨.read, a⟩ :: s.diags })

/-- R37: a write to a valid address (R34) stores exactly the bytes its mask selects, each in its own lane, and emits
nothing; to any other address it stores nothing, whatever the mask, and emits one diagnostic. -/
def Obligations.MemWriteFollowsContract : Prop :=
  ∀ (s : State) (a v : Word) (mask : BitVec 4),
    SameRegs s (s.memWrite a v mask) ∧ (s.memWrite a v mask).pc = s.pc ∧ (s.memWrite a v mask).ir = s.ir ∧
    (s.memWrite a v mask).run = s.run ∧ (s.memWrite a v mask).lastOutcome = s.lastOutcome ∧
    (a.toNat % 4 = 0 ∧ a.toNat + 4 ≤ s.mem.size →
      (s.memWrite a v mask).diags = s.diags ∧ (s.memWrite a v mask).mem.size = s.mem.size ∧
      (∀ i < 4, (s.memWrite a v mask).mem.byte (a.toNat + i) =
        if mask.toNat / 2 ^ i % 2 = 1 then BitVec.ofNat 8 (v.toNat / 256 ^ i) else s.mem.byte (a.toNat + i)) ∧
      ∀ b, b < a.toNat ∨ a.toNat + 4 ≤ b → (s.memWrite a v mask).mem.byte b = s.mem.byte b) ∧
    (¬ (a.toNat % 4 = 0 ∧ a.toNat + 4 ≤ s.mem.size) →
      (s.memWrite a v mask).mem = s.mem ∧ (s.memWrite a v mask).diags = ⟨.write, a⟩ :: s.diags)

/-- The byte at lane `k` of a word just stored is the word's byte `k`, as a byte load sees it: the last sentence of R33,
which the spec marks as derived. -/
def Obligations.ByteLoadSeesLaneOfStoredWord : Prop :=
  ∀ (s : State) (a v : Word) (k : Nat), k < 4 → a.toNat % 4 = 0 → a.toNat + 4 ≤ s.mem.size →
    (((s.memWrite a v 0b1111#4).loadBits (a + BitVec.ofNat 32 k) .byte).1).toNat = v.toNat / 256 ^ k % 256

/-- `fill` and `dump` (R34, R41, R42), and the source's own test in R42: `dump` of a valid span lists what `mem_read` gives at its words and changes
nothing; `fill` then `dump` over the same span gives the filled value, word for word, with no diagnostic; `fill` leaves
every byte outside the span alone; on a span that is not valid either operation emits one diagnostic and does nothing else,
not even for the part in bounds (with no words at all too, which R41 marks as derived). That the span is checked in unbounded
integers is the spec's own choice (decision D14, log entry 15). -/
def Obligations.FillThenDump : Prop :=
  ∀ (s : State) (a v : Word) (n : Nat),
    (a.toNat % 4 = 0 ∧ a.toNat + 4 ≤ s.mem.size ∧ a.toNat + 4 * n ≤ s.mem.size →
      (s.fill a n v).dump a n = (some (List.replicate n v), s.fill a n v) ∧ (s.fill a n v).diags = s.diags ∧
      (∀ b, b < a.toNat ∨ a.toNat + 4 * n ≤ b → (s.fill a n v).mem.byte b = s.mem.byte b) ∧
      (s.dump a n).2 = s ∧
      (s.dump a n).1 = some ((List.range n).map fun k => (s.memRead (a + BitVec.ofNat 32 (4 * k))).1)) ∧
    (¬ (a.toNat % 4 = 0 ∧ a.toNat + 4 ≤ s.mem.size ∧ a.toNat + 4 * n ≤ s.mem.size) →
      s.fill a n v = { s with diags := ⟨.fill, a⟩ :: s.diags } ∧
      s.dump a n = (none, { s with diags := ⟨.dump, a⟩ :: s.diags }))

/-- The image loader (R217, host software; lines already parsed, log entry 14): words loaded from an aligned cursor, all in bounds, are found in memory in order. -/
def Obligations.LoadedWordsAreInMemory : Prop :=
  ∀ (ws : List Word) (cursor : Word) (s : State),
    cursor.toNat % 4 = 0 → cursor.toNat + 4 * ws.length ≤ s.mem.size →
    (loadFrom cursor (ws.map .word) s).mem.words cursor.toNat ws.length = ws ∧
    (loadFrom cursor (ws.map .word) s).diags = s.diags

/-! ## Encoding -/

/-- R61, R68: the fields and the five immediates of every word, as numbers. The bit positions are the ones the spec supplies
from general knowledge (log entry 9). -/
def Obligations.FieldsAndImmediatesOfEveryWord : Prop :=
  ∀ w : Word,
    (opcodeOf w).toNat = w.toNat % 128 ∧ (rdOf w).toNat = w.toNat / 2 ^ 7 % 32 ∧
    (funct3Of w).toNat = w.toNat / 2 ^ 12 % 8 ∧ (rs1Of w).toNat = w.toNat / 2 ^ 15 % 32 ∧
    (rs2Of w).toNat = w.toNat / 2 ^ 20 % 32 ∧ (funct7Of w).toNat = w.toNat / 2 ^ 25 ∧
    (immI w).toInt = Int.ofNat (w.toNat / 2 ^ 20) - Int.ofNat (4096 * (w.toNat / 2 ^ 31)) ∧
    (immS w).toInt =
      Int.ofNat (32 * (w.toNat / 2 ^ 25) + w.toNat / 2 ^ 7 % 32) - Int.ofNat (4096 * (w.toNat / 2 ^ 31)) ∧
    (immB w).toInt =
      Int.ofNat (2048 * (w.toNat / 2 ^ 7 % 2) + 32 * (w.toNat / 2 ^ 25 % 64) + 2 * (w.toNat / 2 ^ 8 % 16))
        - Int.ofNat (4096 * (w.toNat / 2 ^ 31)) ∧
    (immU w).toNat = 4096 * (w.toNat / 2 ^ 12) ∧
    (immJ w).toInt =
      Int.ofNat (4096 * (w.toNat / 2 ^ 12 % 256) + 2048 * (w.toNat / 2 ^ 20 % 2) + 2 * (w.toNat / 2 ^ 21 % 1024))
        - Int.ofNat (1048576 * (w.toNat / 2 ^ 31))

/-- The class ILLEGAL_OPCODE of R78 and R81: a word is of it exactly when its low seven bits are none of the ten of rule R70. -/
def Obligations.IllegalOpcodesAreTheUnrecognised : Prop :=
  ∀ w : Word, decode w = .illegalOpcode ↔ w.toNat % 128 ∉ recognisedOpcodes

/-- The class RESERVED_SUBOP of R77 and R81: a word is of it exactly when it is on the rule's list. -/
def Obligations.ReservedSubencodingsAreTheListed : Prop :=
  ∀ w : Word, decode w = .reservedSubop ↔ reservedList (w.toNat % 128) (w.toNat / 2 ^ 12 % 8) (w.toNat / 2 ^ 25)

/-- Decoding the word of a well-formed instruction gives that instruction, with every operand at every value. -/
def Obligations.DecodeOfEncode : Prop := ∀ i : Instr, i.wellFormed = true → decode (encode i) = .instr i

/-- A word that decodes to an instruction is that instruction's word, and the instruction is well formed: the decoder
drops no bit, and each word has one meaning. -/
def Obligations.EncodeOfDecode : Prop :=
  ∀ (w : Word) (i : Instr), decode w = .instr i → encode i = w ∧ i.wellFormed = true

/-- One word of each family, and words that spell no instruction, written out in the spec's own examples. -/
def Obligations.SampleWordsDecode : Prop :=
  decode 0x00351283#32 = .instr (.lh 5 10 3) ∧ decode 0xFE652E23#32 = .instr (.sw 6 10 0xFFC) ∧
  decode 0x000100B7#32 = .instr (.lui 1 0x10) ∧ decode 0x00001117#32 = .instr (.auipc 2 1) ∧
  decode 0x010000EF#32 = .instr (.jal 1 16) ∧ decode 0xFFC282E7#32 = .instr (.jalr 5 5 0xFFC) ∧
  decode 0xFE62CCE3#32 = .instr (.blt 5 6 0x1FF8) ∧ decode 0x406283B3#32 = .instr (.sub 7 5 6) ∧
  decode 0xFFD28313#32 = .instr (.addi 6 5 0xFFD) ∧ decode 0x4042D393#32 = .instr (.srai 7 5 4) ∧
  decode 0x00100073#32 = .instr .ebreak ∧ decode 0xC0002573#32 = .instr (.systemIgnored 0xC00 0 2 10) ∧
  decode 0x0FF0000F#32 = .illegalOpcode ∧ decode 0x00000000#32 = .illegalOpcode ∧
  decode 0x026283B3#32 = .reservedSubop ∧ decode 0x02429393#32 = .reservedSubop

/-! ## Loads (R105 to R113) -/

/-- LB and LBU (R108, R111); no byte access crosses its word. -/
def Obligations.LoadByteResult : Prop :=
  LoadRule .lb 0b000#3 1 signedBytes ∧ LoadRule .lbu 0b100#3 1 unsignedBytes

/-- LH and LHU (R109, R112). At lane 3 the access crosses its word, and the value there is the spec's own choice (R107,
decision D7, log entry 11). -/
def Obligations.LoadHalfwordResult : Prop :=
  LoadRule .lh 0b001#3 2 signedBytes ∧ LoadRule .lhu 0b101#3 2 unsignedBytes

/-- LW (R110). At lanes 1 to 3 the access crosses its word, and the value there is the spec's own choice (R107, decision D7,
log entry 11). -/
def Obligations.LoadWordResult : Prop := LoadRule .lw 0b010#3 4 unsignedBytes

/-- A load whose containing word is not backed writes 0, reports the aligned base, and goes on (R113, which the spec marks as
derived; the diagnostic is its decision D13, log entry 7). -/
def Obligations.LoadOutsideMemoryGivesZero : Prop :=
  ∀ (i : Instr) (s : State) (addr : Word) (rd : RegIdx),
    loadAddress s i = some addr → destination i = some rd → ¬ Backed s.mem addr →
    ∃ t, exec i s = .next t ∧ RegWritten s t rd 0#32 ∧ CommitsAt s t (nextWord s) ∧ SameMemory s t ∧
      t.diags = ⟨.read, BitVec.ofNat 32 (addr.toNat - addr.toNat % 4)⟩ :: s.diags

/-- What a word-crossing load gives, the spec's own choice (R107, decision D7, log entry 11). LH and LHU at lane 3 both give the one byte, zero-extended; LW at lane `k` gives
the containing word divided by `256 ^ k`. -/
def Obligations.WordCrossingLoadGivesContainedBytes : Prop :=
  (∀ (rd rs1 : RegIdx) (imm : BitVec 12) (s : State), (s.effAddr rs1 imm).toNat % 4 = 3 → Backed s.mem (s.effAddr rs1 imm) →
    ∃ t t', exec (.lh rd rs1 imm) s = .next t ∧ exec (.lhu rd rs1 imm) s = .next t' ∧ t = t' ∧
      RegWritten s t rd ((s.mem.byte (s.effAddr rs1 imm).toNat).setWidth 32)) ∧
  ∀ (rd rs1 : RegIdx) (imm : BitVec 12) (s : State), Backed s.mem (s.effAddr rs1 imm) →
    ∃ t, exec (.lw rd rs1 imm) s = .next t ∧
      RegWritten s t rd (BitVec.ofNat 32
        ((s.mem.word ((s.effAddr rs1 imm).toNat / 4 * 4)).toNat / 256 ^ ((s.effAddr rs1 imm).toNat % 4)))

/-! ## Stores (R115 to R121) -/

/-- SB (R118). -/
def Obligations.StoreByteResult : Prop := StoreRule .sb 0b000#3 1

/-- SH (R119). At lane 3 the access crosses its word and one byte is dropped, the spec's own choice (R117, decision D7, log
entry 11). -/
def Obligations.StoreHalfwordResult : Prop := StoreRule .sh 0b001#3 2

/-- SW (R120). At lanes 1 to 3 the access crosses its word and bytes are dropped, the spec's own choice (R117, decision D7,
log entry 11). -/
def Obligations.StoreWordResult : Prop := StoreRule .sw 0b010#3 4

/-- A store whose containing word is not backed stores nothing, reports the aligned base, and goes on (R121, which the spec
marks as derived; the diagnostic is its decision D13, log entry 7). -/
def Obligations.StoreOutsideMemoryStoresNothing : Prop :=
  ∀ (i : Instr) (s : State) (addr : Word), storeAddress s i = some addr → ¬ Backed s.mem addr →
    ∃ t, exec i s = .next t ∧ SameRegs s t ∧ SameMemory s t ∧ CommitsAt s t (nextWord s) ∧
      t.diags = ⟨.write, BitVec.ofNat 32 (addr.toNat - addr.toNat % 4)⟩ :: s.diags

/-! ## LUI, AUIPC, JAL, JALR (R125 to R132) -/

/-- LUI and AUIPC (R125, R126): their words, the value, and nothing else. -/
def Obligations.UpperImmediateResult : Prop :=
  ∀ (rd : RegIdx) (imm : BitVec 20) (s : State),
    decode (imm ++ rd ++ 0b0110111#7) = .instr (.lui rd imm) ∧
    decode (imm ++ rd ++ 0b0010111#7) = .instr (.auipc rd imm) ∧
    (∃ t, exec (.lui rd imm) s = .next t ∧ RegResult s t rd (BitVec.ofNat 32 (4096 * imm.toNat)) (nextWord s)) ∧
    ∃ t, exec (.auipc rd imm) s = .next t ∧
      RegResult s t rd (BitVec.ofNat 32 (s.pc.toNat + 4096 * imm.toNat)) (nextWord s)

/-- JAL (R130): its word for every even offset; the link; the target, the sum with its low bit cleared. -/
def Obligations.JalResult : Prop :=
  ∀ (rd : RegIdx) (offset : BitVec 21) (s : State),
    (offset.toNat % 2 = 0 →
      decode (offset.extractLsb' 20 1 ++ offset.extractLsb' 1 10 ++ offset.extractLsb' 11 1 ++ offset.extractLsb' 12 8
        ++ rd ++ 0b1101111#7) = .instr (.jal rd offset)) ∧
    ∃ t, exec (.jal rd offset) s = .next t ∧
      RegResult s t rd (nextWord s) (BitVec.ofInt 32 (2 * ((s.pc.toNat + offset.toInt) / 2)))

/-- JALR (R131): its word; the link; the target from the base register as it was before the instruction, which for `rd = rs1`
is the spec's own choice (decision D6, log entry 12). -/
def Obligations.JalrResult : Prop :=
  ∀ (rd rs1 : RegIdx) (imm : BitVec 12) (s : State),
    decode (imm ++ rs1 ++ 0b000#3 ++ rd ++ 0b1100111#7) = .instr (.jalr rd rs1 imm) ∧
    ∃ t, exec (.jalr rd rs1 imm) s = .next t ∧
      RegResult s t rd (nextWord s) (BitVec.ofInt 32 (2 * (((s.readReg rs1).toNat + imm.toInt) / 2)))

/-! ## Branches (R135 to R142) -/

/-- BEQ and BNE (R136, R137). -/
def Obligations.EqualityBranchResult : Prop :=
  BranchRule .beq 0b000#3 (fun a b => decide (a.toNat = b.toNat)) ∧
  BranchRule .bne 0b001#3 (fun a b => decide (a.toNat ≠ b.toNat))

/-- BLT and BGE, on two's-complement integers (R138, R139). -/
def Obligations.SignedBranchResult : Prop :=
  BranchRule .blt 0b100#3 (fun a b => decide (a.toInt < b.toInt)) ∧
  BranchRule .bge 0b101#3 (fun a b => decide (a.toInt ≥ b.toInt))

/-- BLTU and BGEU, on naturals (R140, R141). -/
def Obligations.UnsignedBranchResult : Prop :=
  BranchRule .bltu 0b110#3 (fun a b => decide (a.toNat < b.toNat)) ∧
  BranchRule .bgeu 0b111#3 (fun a b => decide (a.toNat ≥ b.toNat))

/-! ## Register-register ALU (R145 to R158) -/

/-- ADD and SUB, modulo 2^32 (R148, R149). -/
def Obligations.AddSubResult : Prop :=
  RegRegRule .add 0b0000000#7 0b000#3 (fun a b => BitVec.ofNat 32 (a.toNat + b.toNat)) ∧
  RegRegRule .sub 0b0100000#7 0b000#3 (fun a b => BitVec.ofInt 32 ((a.toNat : Int) - b.toNat))

/-- SLL, SRL, SRA: the amount is the low five bits; SRA is floor division (R150, R154, R155). -/
def Obligations.ShiftResult : Prop :=
  RegRegRule .sll 0b0000000#7 0b001#3 (fun a b => BitVec.ofNat 32 (a.toNat * 2 ^ (b.toNat % 32))) ∧
  RegRegRule .srl 0b0000000#7 0b101#3 (fun a b => BitVec.ofNat 32 (a.toNat / 2 ^ (b.toNat % 32))) ∧
  RegRegRule .sra 0b0100000#7 0b101#3 (fun a b => BitVec.ofInt 32 (a.toInt / 2 ^ (b.toNat % 32)))

/-- SLT and SLTU: exactly 1 or 0 (R151, R152). -/
def Obligations.SetLessThanResult : Prop :=
  RegRegRule .slt 0b0000000#7 0b010#3 (fun a b => if a.toInt < b.toInt then 1#32 else 0#32) ∧
  RegRegRule .sltu 0b0000000#7 0b011#3 (fun a b => if a.toNat < b.toNat then 1#32 else 0#32)

/-- XOR, OR, AND, on the 32 bits as naturals (R153, R156, R157). -/
def Obligations.LogicalResult : Prop :=
  RegRegRule .xor 0b0000000#7 0b100#3 (fun a b => BitVec.ofNat 32 (a.toNat ^^^ b.toNat)) ∧
  RegRegRule .or 0b0000000#7 0b110#3 (fun a b => BitVec.ofNat 32 (a.toNat ||| b.toNat)) ∧
  RegRegRule .and 0b0000000#7 0b111#3 (fun a b => BitVec.ofNat 32 (a.toNat &&& b.toNat))

/-! ## Register-immediate ALU (R165 to R174) -/

/-- ADDI (R166). -/
def Obligations.AddImmediateResult : Prop :=
  RegImmRule .addi 0b000#3 (fun a b => BitVec.ofNat 32 (a.toNat + b.toNat))

/-- SLTI and SLTIU: the immediate is sign-extended first, then read signed or unsigned (R167, R168). -/
def Obligations.SetLessThanImmediateResult : Prop :=
  RegImmRule .slti 0b010#3 (fun a b => if a.toInt < b.toInt then 1#32 else 0#32) ∧
  RegImmRule .sltiu 0b011#3 (fun a b => if a.toNat < b.toNat then 1#32 else 0#32)

/-- XORI, ORI, ANDI (R169, R170, R171). -/
def Obligations.LogicalImmediateResult : Prop :=
  RegImmRule .xori 0b100#3 (fun a b => BitVec.ofNat 32 (a.toNat ^^^ b.toNat)) ∧
  RegImmRule .ori 0b110#3 (fun a b => BitVec.ofNat 32 (a.toNat ||| b.toNat)) ∧
  RegImmRule .andi 0b111#3 (fun a b => BitVec.ofNat 32 (a.toNat &&& b.toNat))

/-- SLLI, SRLI, SRAI (R172, R173, R174). -/
def Obligations.ShiftImmediateResult : Prop :=
  ShiftImmRule .slli 0b0000000#7 0b001#3 (fun a k => BitVec.ofNat 32 (a.toNat * 2 ^ k)) ∧
  ShiftImmRule .srli 0b0000000#7 0b101#3 (fun a k => BitVec.ofNat 32 (a.toNat / 2 ^ k)) ∧
  ShiftImmRule .srai 0b0100000#7 0b101#3 (fun a k => BitVec.ofInt 32 (a.toInt / 2 ^ k))

/-! ## The System group and words that are no instruction (R180 to R185, R190 to R199) -/

/-- Break (R192), which EBREAK raises (R181): the core halts with status -1; registers, memory, `pc`, `ir` and the diagnostics are as
they were. That EBREAK is the word 0x00100073 is the spec's own choice (R76, decision D9, log entry 9). -/
def Obligations.EbreakResult : Prop :=
  decode 0x00100073#32 = .instr .ebreak ∧
  ∀ s : State, ∃ t, exec .ebreak s = .next t ∧ HaltsInPlace s t ∧ t.ir = s.ir ∧ t.diags = s.diags ∧
    t.lastOutcome = some .brk ∧ t.lastOutcome.bind TickOutcome.status = some (-1)

/-- R182: every word of the SYSTEM opcode but the breakpoint word is ignored, whatever its fields; the instruction it
decodes to only advances `pc`, and writes no register even when `rd` is not 0. -/
def Obligations.IgnoredSystemWordResult : Prop :=
  (∀ w : Word, w.toNat % 128 = 0b1110011 → w ≠ 0x00100073#32 →
    decode w = .instr (.systemIgnored (iField w) (rs1Of w) (funct3Of w) (rdOf w))) ∧
  ∀ (imm : BitVec 12) (rs1 : RegIdx) (funct3 : BitVec 3) (rd : RegIdx) (s : State),
    ∃ t, exec (.systemIgnored imm rs1 funct3 rd) s = .next t ∧ SameRegs s t ∧ SameMemory s t ∧ t.diags = s.diags ∧
      CommitsAt s t (nextWord s)

/-- The fatal path (R184, R193): a step whose fetched word is an unrecognised opcode or a reserved sub-encoding ends Fatal, with the opcode
and the `pc` of the word; registers, memory and `pc` are as they were, and `ir` holds the word. That a reserved sub-encoding is fatal, and the form of
the outcome, are the spec's own choices (decisions D8 and D12, log entries 10 and 6). -/
def Obligations.FatalWordHaltsInPlace : Prop :=
  ∀ s : State, s.run = .running → (decode (fetchedWord s) = .illegalOpcode ∨ decode (fetchedWord s) = .reservedSubop) →
    ∃ t, step s = .next t ∧ HaltsInPlace s t ∧ t.ir = fetchedWord s ∧
      t.lastOutcome = some (.fatal ((fetchedWord s).extractLsb' 0 7) s.pc) ∧
      t.lastOutcome.bind TickOutcome.status = none

/-- A fetch from a misaligned or unbacked `pc` emits one diagnostic, leaves 0 in `ir`, and ends Fatal with opcode 0;
everything else is as it was (R97, which the spec derives from R36, R78 and R92). -/
def Obligations.FetchFromBadPcIsFatal : Prop :=
  ∀ s : State, s.run = .running → ¬ (s.pc.toNat % 4 = 0 ∧ s.pc.toNat + 4 ≤ s.mem.size) →
    step s = .next { s with
      ir := 0#32, run := .halted, lastOutcome := some (.fatal 0#7 s.pc), diags := ⟨.read, s.pc⟩ :: s.diags }

/-- Every instruction completes, in every state, with the outcome `ok`, but for EBREAK, whose effect is Break: none traps,
none stops. -/
def Obligations.EveryInstructionCompletes : Prop :=
  ∀ (i : Instr) (s : State), ∃ t, exec i s = .next t ∧
    (i ≠ .ebreak → t.lastOutcome = some .ok ∧ t.run = s.run) ∧ (i = .ebreak → t.lastOutcome = some .brk)

/-! ## The tick (R90 to R99) -/

/-- A step runs the decoded instruction (R92, R93): when the core is running and the word at a valid `pc` decodes to `i`,
the step is `exec i` at the state with that word in `ir`, and `i` is well formed. -/
def Obligations.StepRunsDecodedInstruction : Prop :=
  ∀ (s : State) (i : Instr), s.run = .running → s.mem.Valid s.pc → decode (s.mem.word s.pc.toNat) = .instr i →
    step s = exec i { s with ir := s.mem.word s.pc.toNat } ∧ i.wellFormed = true

/-- A step after `withFetchWord`, the model's stand-in for the host's loader (log entry 13), fetches that word: at a valid
`pc`, whatever the run state was. -/
def Obligations.PlacedWordIsFetched : Prop :=
  ∀ (s : State) (w : Nat), s.mem.Valid s.pc →
    (s.withFetchWord 32 w).run = .running ∧ (s.withFetchWord 32 w).pc = s.pc ∧
    fetchedWord (s.withFetchWord 32 w) = BitVec.ofNat 32 w ∧ SameRegs s (s.withFetchWord 32 w)

/-- A running core always has a step, whatever its registers, `pc` and memory hold; a halted one never has: the
spec's own choice, for what the source leaves undefined (R91, R200, decision D11, log entry 8). -/
def Obligations.StepExactlyWhenRunning : Prop :=
  ∀ s : State, (∃ t, step s = .next t) ↔ s.run = .running

/-- A halted core has no tick, and no other move of the host but `reset` lets it run again (R200; the spec's own choice,
decision D11, log entry 8). -/
def Obligations.HaltedCoreOnlyResets : Prop :=
  ∀ s : State, s.run = .halted →
    step s = .fault .tickWhileHalted ∧
    ∀ (m : HostMove) (a : HostAnswer) (t : State), hostMove m s = .next (a, t) →
      (∃ entryPc irAfter, m = .reset entryPc irAfter) ∨ t.run = .halted

/-- The three outcomes of a tick, each with its status, run state and `pc` (R95); after `ok`, `pc` is where the table of R16 puts
it for the instruction (for JALR with `rd = rs1` by decision D6, log entry 12). That Fatal is an outcome is the spec's own choice
(decision D12, log entry 6). -/
def Obligations.TickHasOneOfThreeOutcomes : Prop :=
  ∀ s t : State, step s = .next t →
    (t.lastOutcome = some .ok ∧ t.lastOutcome.bind TickOutcome.status = some 0 ∧ t.run = .running ∧
      ∃ i, decode (fetchedWord s) = .instr i ∧ t.pc = pcAfter s i) ∨
    (t.lastOutcome = some .brk ∧ t.lastOutcome.bind TickOutcome.status = some (-1) ∧ t.run = .halted ∧ t.pc = s.pc) ∨
    (t.lastOutcome = some (.fatal (opcodeOf t.ir) s.pc) ∧ t.lastOutcome.bind TickOutcome.status = none ∧
      t.run = .halted ∧ t.pc = s.pc)

/-- R99: what a tick can change. `ir` becomes the fetched word; at most the destination register of the decoded
instruction changes, and never `x0`; at most the bytes of the aligned word a store addresses; a tick that is not `ok`
leaves registers, memory and `pc` alone and halts; one that is `ok` leaves the core running. -/
def Obligations.TickFrame : Prop :=
  ∀ s t : State, step s = .next t →
    t.ir = fetchedWord s ∧
    (t.lastOutcome = some .ok → t.run = .running) ∧
    (t.lastOutcome ≠ some .ok → HaltsInPlace s t) ∧
    t.readReg 0#5 = s.readReg 0#5 ∧
    (∀ q, t.readReg q ≠ s.readReg q → ∃ i, decode (fetchedWord s) = .instr i ∧ destination i = some q) ∧
    t.mem.size = s.mem.size ∧
    ∀ b, t.mem.byte b ≠ s.mem.byte b →
      ∃ i addr, decode (fetchedWord s) = .instr i ∧ storeAddress s i = some addr ∧ b / 4 = addr.toNat / 4

/-- A program ends its run only by EBREAK or by a fatal word (R183): a step leaves the core halted exactly when the fetched
word is the breakpoint word or spells no instruction. -/
def Obligations.OnlyEbreakOrFatalWordHalts : Prop :=
  ∀ s t : State, step s = .next t →
    (t.run = .halted ↔ fetchedWord s = 0x00100073#32 ∨ ∀ i, decode (fetchedWord s) ≠ .instr i)

/-- The diagnostics of a tick (R197; that they are events with a kind and an address is the spec's own choice, decision D13,
log entry 7). A bad `pc` gives the fetch's diagnostic and Fatal with opcode 0, always together;
otherwise a tick emits none, or exactly one, that of the load or store it executed, with the outcome `ok`. -/
def Obligations.TickDiagnostics : Prop :=
  ∀ s t : State, step s = .next t →
    (¬ s.mem.Valid s.pc ∧ t.diags = ⟨.read, s.pc⟩ :: s.diags ∧ t.lastOutcome = some (.fatal 0#7 s.pc)) ∨
    (s.mem.Valid s.pc ∧ t.diags = s.diags) ∨
    (s.mem.Valid s.pc ∧ t.lastOutcome = some .ok ∧ ∃ i addr, decode (fetchedWord s) = .instr i ∧ ¬ Backed s.mem addr ∧
      ((loadAddress s i = some addr ∧ t.diags = ⟨.read, BitVec.ofNat 32 (addr.toNat - addr.toNat % 4)⟩ :: s.diags) ∨
       (storeAddress s i = some addr ∧ t.diags = ⟨.write, BitVec.ofNat 32 (addr.toNat - addr.toNat % 4)⟩ :: s.diags)))

/-- No program can observe `ir`, the last outcome or the diagnostics (R18, R40): states that agree on everything else step
alike, and the words they fetch and the outcomes they end in are the same. -/
def Obligations.StepIgnoresOutputs : Prop :=
  ∀ s s' t : State, AgreeButOutputs s s' → step s = .next t →
    ∃ t', step s' = .next t' ∧ AgreeButOutputs t t' ∧ t.ir = t'.ir ∧ t.lastOutcome = t'.lastOutcome

/-- A store of any width that addresses the word of the next instruction is seen by the next fetch, with nothing in between: the
word fetched has the stored bytes at their places and the old bytes at the others (R50, which the spec marks as derived). Which
bytes a word-crossing store has there is the spec's own choice (R117, decision D7, log entry 11). -/
def Obligations.StoreIsSeenByNextFetch : Prop :=
  ∀ (s t : State) (i : Instr) (rs2 rs1 : RegIdx) (imm : BitVec 12) (n : Nat),
    (i = .sb rs2 rs1 imm ∧ n = 1) ∨ (i = .sh rs2 rs1 imm ∧ n = 2) ∨ (i = .sw rs2 rs1 imm ∧ n = 4) →
    step s = .next t → decode (fetchedWord s) = .instr i →
    (s.effAddr rs1 imm).toNat / 4 = (nextWord s).toNat / 4 → s.mem.Valid (nextWord s) →
    t.pc = nextWord s ∧
    ∀ k < 4, (fetchedWord t).toNat / 256 ^ k % 256 =
      if (s.effAddr rs1 imm).toNat ≤ (nextWord s).toNat + k ∧ (nextWord s).toNat + k < (s.effAddr rs1 imm).toNat + n
      then (s.readReg rs2).toNat / 256 ^ ((nextWord s).toNat + k - (s.effAddr rs1 imm).toNat) % 256
      else (s.mem.byte ((nextWord s).toNat + k)).toNat

/-- The reserved-sub-encoding policy (R77, U3): on a fetched word that is no reserved sub-encoding the two policies give
the same tick; on one that is, `fatal` ends Fatal and `nop` only advances `pc`. That the model's step uses `fatal` is the
spec's decision D8. -/
def Obligations.PoliciesDifferOnlyOnReservedWords : Prop :=
  (∀ s : State, decode (fetchedWord s) ≠ .reservedSubop → tickUnder .nop s = tickUnder .fatal s) ∧
  (∀ s : State, s.run = .running → decode (fetchedWord s) = .reservedSubop →
    ∃ t t', tickUnder .fatal s = .next t ∧ HaltsInPlace s t ∧
      tickUnder .nop s = .next t' ∧ SameRegs s t' ∧ SameMemory s t' ∧ t'.pc = nextWord s ∧ t'.run = .running) ∧
  ∀ s : State, step s = tickUnder .fatal s

/-! ## Invariants -/

/-- Every step keeps `x0` at 0 (R12) and the memory in canonical form, with no byte listed beyond `MEM_SIZE` (R31). -/
def Obligations.StepKeepsInv : Prop := ∀ s t : State, s.Inv → step s = .next t → t.Inv

/-- After every step the record of the outcome agrees with the state: halted on the breakpoint word after Break, halted
with the word's opcode and `pc` after Fatal, running after `ok` (R95, R190, R192, R193). -/
def Obligations.StepEstablishesOutcomeAgrees : Prop := ∀ s t : State, step s = .next t → t.OutcomeAgrees

/-- From an even `pc` every step leaves an even `pc`: only an odd reset address gives an odd one (R17, R142). -/
def Obligations.StepKeepsPcEven : Prop := ∀ s t : State, s.PcEven → step s = .next t → t.PcEven

/-- Every move of the host keeps the machine's invariant, and only a tick and a reset change a register, `pc` or the run
state (R214). -/
def Obligations.HostMovesKeepInv : Prop :=
  ∀ (m : HostMove) (s t : State) (a : HostAnswer), hostMove m s = .next (a, t) →
    (s.Inv → t.Inv) ∧
    (m ≠ .tick → (∀ entryPc irAfter, m ≠ .reset entryPc irAfter) →
      SameRegs s t ∧ t.pc = s.pc ∧ t.ir = s.ir ∧ t.run = s.run)

/-! ## Runs (R218) -/

/-- A run that ends normally ends halted on the breakpoint word, with `pc` at that word's address (R218). The run is one of ticks
alone, with no move of the host between them (log entry 18). Which word is the breakpoint is the spec's own choice (decision D9,
log entry 9). -/
def Obligations.NormalEndIsAtABreakpoint : Prop :=
  ∀ s t : State, EndsNormally s t →
    t.run = .halted ∧ t.ir = 0x00100073#32 ∧ t.mem.Valid t.pc ∧ t.mem.word t.pc.toNat = 0x00100073#32

/-- A run that ends in error ends halted, with the outcome that names the low seven bits of `ir` and `pc`; `ir` is what the fetch
returns at that `pc` (the word there, or 0 when `pc` is bad), and it spells no instruction (R193, R218). The run is one of ticks
alone, with no move of the host between them (log entry 18). That Fatal is an outcome, and that a reserved sub-encoding is fatal,
are the spec's own choices (decisions D12 and D8, log entries 6 and 10). -/
def Obligations.ErrorEndIsAtAWordOfNoInstruction : Prop :=
  ∀ s t : State, EndsInError s t →
    t.run = .halted ∧ t.lastOutcome = some (.fatal (opcodeOf t.ir) t.pc) ∧ t.ir = fetchedWord t ∧
    ∀ i, decode (fetchedWord t) ≠ .instr i
end

