-- ==== Sys2Proof/Laws/Decode.lean ====
section
/-! SUPPORT. The laws of the encoder and the decoder: every field of an encoded word reads back, and every word is its own fields put together again. -/

namespace Sys2Proof

/-! ## encR -/

@[simp] theorem opcodeOf_encR (funct7 : BitVec 7) (rs2 rs1 : BitVec 5) (funct3 : BitVec 3) (rd : BitVec 5) (opcode : BitVec 7) :
    opcodeOf (encR funct7 rs2 rs1 funct3 rd opcode) = opcode := by
  simp (disch := decide) only [opcodeOf, encR, BitVec.extractLsb'_append_eq_of_add_le]
  exact BitVec.extractLsb'_eq_self

@[simp] theorem rdOf_encR (funct7 : BitVec 7) (rs2 rs1 : BitVec 5) (funct3 : BitVec 3) (rd : BitVec 5) (opcode : BitVec 7) :
    rdOf (encR funct7 rs2 rs1 funct3 rd opcode) = rd := by
  simp (disch := decide) only [rdOf, encR, BitVec.extractLsb'_append_eq_of_le, BitVec.extractLsb'_append_eq_of_add_le]
  exact BitVec.extractLsb'_eq_self

@[simp] theorem funct3Of_encR (funct7 : BitVec 7) (rs2 rs1 : BitVec 5) (funct3 : BitVec 3) (rd : BitVec 5) (opcode : BitVec 7) :
    funct3Of (encR funct7 rs2 rs1 funct3 rd opcode) = funct3 := by
  simp (disch := decide) only [funct3Of, encR, BitVec.extractLsb'_append_eq_of_le, BitVec.extractLsb'_append_eq_of_add_le]
  exact BitVec.extractLsb'_eq_self

@[simp] theorem rs1Of_encR (funct7 : BitVec 7) (rs2 rs1 : BitVec 5) (funct3 : BitVec 3) (rd : BitVec 5) (opcode : BitVec 7) :
    rs1Of (encR funct7 rs2 rs1 funct3 rd opcode) = rs1 := by
  simp (disch := decide) only [rs1Of, encR, BitVec.extractLsb'_append_eq_of_le, BitVec.extractLsb'_append_eq_of_add_le]
  exact BitVec.extractLsb'_eq_self

@[simp] theorem rs2Of_encR (funct7 : BitVec 7) (rs2 rs1 : BitVec 5) (funct3 : BitVec 3) (rd : BitVec 5) (opcode : BitVec 7) :
    rs2Of (encR funct7 rs2 rs1 funct3 rd opcode) = rs2 := by
  simp (disch := decide) only [rs2Of, encR, BitVec.extractLsb'_append_eq_of_le, BitVec.extractLsb'_append_eq_of_add_le]
  exact BitVec.extractLsb'_eq_self

@[simp] theorem shamtOf_encR (funct7 : BitVec 7) (rs2 rs1 : BitVec 5) (funct3 : BitVec 3) (rd : BitVec 5) (opcode : BitVec 7) :
    shamtOf (encR funct7 rs2 rs1 funct3 rd opcode) = rs2 := by
  simp (disch := decide) only [shamtOf, encR, BitVec.extractLsb'_append_eq_of_le, BitVec.extractLsb'_append_eq_of_add_le]
  exact BitVec.extractLsb'_eq_self

@[simp] theorem funct7Of_encR (funct7 : BitVec 7) (rs2 rs1 : BitVec 5) (funct3 : BitVec 3) (rd : BitVec 5) (opcode : BitVec 7) :
    funct7Of (encR funct7 rs2 rs1 funct3 rd opcode) = funct7 := by
  simp (disch := decide) only [funct7Of, encR, BitVec.extractLsb'_append_eq_of_le]
  exact BitVec.extractLsb'_eq_self

/-! ## encI -/

@[simp] theorem opcodeOf_encI (imm : BitVec 12) (rs1 : BitVec 5) (funct3 : BitVec 3) (rd : BitVec 5) (opcode : BitVec 7) :
    opcodeOf (encI imm rs1 funct3 rd opcode) = opcode := by
  simp (disch := decide) only [opcodeOf, encI, BitVec.extractLsb'_append_eq_of_add_le]
  exact BitVec.extractLsb'_eq_self

@[simp] theorem rdOf_encI (imm : BitVec 12) (rs1 : BitVec 5) (funct3 : BitVec 3) (rd : BitVec 5) (opcode : BitVec 7) :
    rdOf (encI imm rs1 funct3 rd opcode) = rd := by
  simp (disch := decide) only [rdOf, encI, BitVec.extractLsb'_append_eq_of_le, BitVec.extractLsb'_append_eq_of_add_le]
  exact BitVec.extractLsb'_eq_self

@[simp] theorem funct3Of_encI (imm : BitVec 12) (rs1 : BitVec 5) (funct3 : BitVec 3) (rd : BitVec 5) (opcode : BitVec 7) :
    funct3Of (encI imm rs1 funct3 rd opcode) = funct3 := by
  simp (disch := decide) only [funct3Of, encI, BitVec.extractLsb'_append_eq_of_le, BitVec.extractLsb'_append_eq_of_add_le]
  exact BitVec.extractLsb'_eq_self

@[simp] theorem rs1Of_encI (imm : BitVec 12) (rs1 : BitVec 5) (funct3 : BitVec 3) (rd : BitVec 5) (opcode : BitVec 7) :
    rs1Of (encI imm rs1 funct3 rd opcode) = rs1 := by
  simp (disch := decide) only [rs1Of, encI, BitVec.extractLsb'_append_eq_of_le, BitVec.extractLsb'_append_eq_of_add_le]
  exact BitVec.extractLsb'_eq_self

@[simp] theorem iField_encI (imm : BitVec 12) (rs1 : BitVec 5) (funct3 : BitVec 3) (rd : BitVec 5) (opcode : BitVec 7) :
    iField (encI imm rs1 funct3 rd opcode) = imm := by
  simp (disch := decide) only [iField, encI, BitVec.extractLsb'_append_eq_of_le]
  exact BitVec.extractLsb'_eq_self

/-! ## encS -/

@[simp] theorem opcodeOf_encS (imm : BitVec 12) (rs2 rs1 : BitVec 5) (funct3 : BitVec 3) (opcode : BitVec 7) :
    opcodeOf (encS imm rs2 rs1 funct3 opcode) = opcode := by
  simp (disch := decide) only [opcodeOf, encS, BitVec.extractLsb'_append_eq_of_add_le]
  exact BitVec.extractLsb'_eq_self

@[simp] theorem funct3Of_encS (imm : BitVec 12) (rs2 rs1 : BitVec 5) (funct3 : BitVec 3) (opcode : BitVec 7) :
    funct3Of (encS imm rs2 rs1 funct3 opcode) = funct3 := by
  simp (disch := decide) only [funct3Of, encS, BitVec.extractLsb'_append_eq_of_le, BitVec.extractLsb'_append_eq_of_add_le]
  exact BitVec.extractLsb'_eq_self

@[simp] theorem rs1Of_encS (imm : BitVec 12) (rs2 rs1 : BitVec 5) (funct3 : BitVec 3) (opcode : BitVec 7) :
    rs1Of (encS imm rs2 rs1 funct3 opcode) = rs1 := by
  simp (disch := decide) only [rs1Of, encS, BitVec.extractLsb'_append_eq_of_le, BitVec.extractLsb'_append_eq_of_add_le]
  exact BitVec.extractLsb'_eq_self

@[simp] theorem rs2Of_encS (imm : BitVec 12) (rs2 rs1 : BitVec 5) (funct3 : BitVec 3) (opcode : BitVec 7) :
    rs2Of (encS imm rs2 rs1 funct3 opcode) = rs2 := by
  simp (disch := decide) only [rs2Of, encS, BitVec.extractLsb'_append_eq_of_le, BitVec.extractLsb'_append_eq_of_add_le]
  exact BitVec.extractLsb'_eq_self

/-! ## encB -/

@[simp] theorem opcodeOf_encB (offset : BitVec 13) (rs2 rs1 : BitVec 5) (funct3 : BitVec 3) (opcode : BitVec 7) :
    opcodeOf (encB offset rs2 rs1 funct3 opcode) = opcode := by
  simp (disch := decide) only [opcodeOf, encB, BitVec.extractLsb'_append_eq_of_add_le]
  exact BitVec.extractLsb'_eq_self

@[simp] theorem funct3Of_encB (offset : BitVec 13) (rs2 rs1 : BitVec 5) (funct3 : BitVec 3) (opcode : BitVec 7) :
    funct3Of (encB offset rs2 rs1 funct3 opcode) = funct3 := by
  simp (disch := decide) only [funct3Of, encB, BitVec.extractLsb'_append_eq_of_le, BitVec.extractLsb'_append_eq_of_add_le]
  exact BitVec.extractLsb'_eq_self

@[simp] theorem rs1Of_encB (offset : BitVec 13) (rs2 rs1 : BitVec 5) (funct3 : BitVec 3) (opcode : BitVec 7) :
    rs1Of (encB offset rs2 rs1 funct3 opcode) = rs1 := by
  simp (disch := decide) only [rs1Of, encB, BitVec.extractLsb'_append_eq_of_le, BitVec.extractLsb'_append_eq_of_add_le]
  exact BitVec.extractLsb'_eq_self

@[simp] theorem rs2Of_encB (offset : BitVec 13) (rs2 rs1 : BitVec 5) (funct3 : BitVec 3) (opcode : BitVec 7) :
    rs2Of (encB offset rs2 rs1 funct3 opcode) = rs2 := by
  simp (disch := decide) only [rs2Of, encB, BitVec.extractLsb'_append_eq_of_le, BitVec.extractLsb'_append_eq_of_add_le]
  exact BitVec.extractLsb'_eq_self

/-! ## encU -/

@[simp] theorem opcodeOf_encU (imm : BitVec 20) (rd : BitVec 5) (opcode : BitVec 7) :
    opcodeOf (encU imm rd opcode) = opcode := by
  simp (disch := decide) only [opcodeOf, encU, BitVec.extractLsb'_append_eq_of_add_le]
  exact BitVec.extractLsb'_eq_self

@[simp] theorem rdOf_encU (imm : BitVec 20) (rd : BitVec 5) (opcode : BitVec 7) :
    rdOf (encU imm rd opcode) = rd := by
  simp (disch := decide) only [rdOf, encU, BitVec.extractLsb'_append_eq_of_le, BitVec.extractLsb'_append_eq_of_add_le]
  exact BitVec.extractLsb'_eq_self

@[simp] theorem uField_encU (imm : BitVec 20) (rd : BitVec 5) (opcode : BitVec 7) :
    uField (encU imm rd opcode) = imm := by
  simp (disch := decide) only [uField, encU, BitVec.extractLsb'_append_eq_of_le]
  exact BitVec.extractLsb'_eq_self

/-! ## encJ -/

@[simp] theorem opcodeOf_encJ (offset : BitVec 21) (rd : BitVec 5) (opcode : BitVec 7) :
    opcodeOf (encJ offset rd opcode) = opcode := by
  simp (disch := decide) only [opcodeOf, encJ, BitVec.extractLsb'_append_eq_of_add_le]
  exact BitVec.extractLsb'_eq_self

@[simp] theorem rdOf_encJ (offset : BitVec 21) (rd : BitVec 5) (opcode : BitVec 7) :
    rdOf (encJ offset rd opcode) = rd := by
  simp (disch := decide) only [rdOf, encJ, BitVec.extractLsb'_append_eq_of_le, BitVec.extractLsb'_append_eq_of_add_le]
  exact BitVec.extractLsb'_eq_self

/-! ## The scattered immediates -/

@[simp] theorem sField_encS (imm : BitVec 12) (rs2 rs1 : BitVec 5) (funct3 : BitVec 3) (opcode : BitVec 7) :
    sField (encS imm rs2 rs1 funct3 opcode) = imm := by
  simp (disch := decide) only [sField, encS, BitVec.extractLsb'_append_eq_of_le,
    BitVec.extractLsb'_append_eq_of_add_le, Nat.reduceSub, BitVec.extractLsb'_eq_self]
  apply BitVec.eq_of_getLsbD_eq
  intro i hi
  simp only [BitVec.getLsbD_append, BitVec.getLsbD_extractLsb']
  split_ifs with h
  · simp [h]
  · simp [show i - 5 < 7 by omega, show 5 + (i - 5) = i by omega]

/-- An even offset survives the B-type layout, which has no place for bit 0 (R65, R68). -/
theorem bField_encB {offset : BitVec 13} (h : offset.getLsbD 0 = false) (rs2 rs1 : BitVec 5) (funct3 : BitVec 3)
    (opcode : BitVec 7) : bField (encB offset rs2 rs1 funct3 opcode) = offset := by
  simp (disch := decide) only [bField, encB, BitVec.extractLsb'_append_eq_of_le,
    BitVec.extractLsb'_append_eq_of_add_le, Nat.reduceSub, Nat.sub_self, BitVec.extractLsb'_eq_self]
  apply BitVec.eq_of_getLsbD_eq
  intro i hi
  replace hi : i < 13 := hi
  interval_cases i <;> simp only [BitVec.getLsbD_append, BitVec.getLsbD_extractLsb', h] <;> rfl

/-- An even offset survives the J-type layout, which has no place for bit 0 (R67, R68). -/
theorem jField_encJ {offset : BitVec 21} (h : offset.getLsbD 0 = false) (rd : BitVec 5) (opcode : BitVec 7) :
    jField (encJ offset rd opcode) = offset := by
  simp (disch := decide) only [jField, encJ, BitVec.extractLsb'_append_eq_of_le,
    BitVec.extractLsb'_append_eq_of_add_le, Nat.reduceSub, Nat.sub_self, BitVec.extractLsb'_eq_self]
  apply BitVec.eq_of_getLsbD_eq
  intro i hi
  replace hi : i < 21 := hi
  interval_cases i <;> simp only [BitVec.getLsbD_append, BitVec.getLsbD_extractLsb', h] <;> rfl

/-! ## Every word is its own fields -/

/-- The bits of the six layouts, read back and put together, are the word they were read from. -/
theorem encR_fields (w : Word) :
    encR (funct7Of w) (rs2Of w) (rs1Of w) (funct3Of w) (rdOf w) (opcodeOf w) = w := by
  apply BitVec.eq_of_getLsbD_eq
  intro i hi
  simp only [encR, funct7Of, rs2Of, rs1Of, funct3Of, rdOf, opcodeOf, BitVec.getLsbD_append, BitVec.getLsbD_extractLsb']
  interval_cases i <;> rfl

theorem encI_fields (w : Word) : encI (iField w) (rs1Of w) (funct3Of w) (rdOf w) (opcodeOf w) = w := by
  apply BitVec.eq_of_getLsbD_eq
  intro i hi
  simp only [encI, iField, rs1Of, funct3Of, rdOf, opcodeOf, BitVec.getLsbD_append, BitVec.getLsbD_extractLsb']
  interval_cases i <;> rfl

theorem encS_fields (w : Word) : encS (sField w) (rs2Of w) (rs1Of w) (funct3Of w) (opcodeOf w) = w := by
  apply BitVec.eq_of_getLsbD_eq
  intro i hi
  simp only [encS, sField, rs2Of, rs1Of, funct3Of, opcodeOf, BitVec.getLsbD_append, BitVec.getLsbD_extractLsb']
  interval_cases i <;> rfl

theorem encB_fields (w : Word) : encB (bField w) (rs2Of w) (rs1Of w) (funct3Of w) (opcodeOf w) = w := by
  apply BitVec.eq_of_getLsbD_eq
  intro i hi
  simp only [encB, bField, rs2Of, rs1Of, funct3Of, opcodeOf, BitVec.getLsbD_append, BitVec.getLsbD_extractLsb']
  interval_cases i <;> rfl

theorem encU_fields (w : Word) : encU (uField w) (rdOf w) (opcodeOf w) = w := by
  apply BitVec.eq_of_getLsbD_eq
  intro i hi
  simp only [encU, uField, rdOf, opcodeOf, BitVec.getLsbD_append, BitVec.getLsbD_extractLsb']
  interval_cases i <;> rfl

theorem encJ_fields (w : Word) : encJ (jField w) (rdOf w) (opcodeOf w) = w := by
  apply BitVec.eq_of_getLsbD_eq
  intro i hi
  simp only [encJ, jField, rdOf, opcodeOf, BitVec.getLsbD_append, BitVec.getLsbD_extractLsb']
  interval_cases i <;> rfl

/-- A decoded branch offset is even (R68). -/
@[simp] theorem evenOffset_bField (w : Word) : evenOffset (bField w) = true := by
  simp only [evenOffset, bField, BitVec.getLsbD_append]; rfl

/-- A decoded JAL offset is even (R68). -/
@[simp] theorem evenOffset_jField (w : Word) : evenOffset (jField w) = true := by
  simp only [evenOffset, jField, BitVec.getLsbD_append]; rfl

/-- The eight values of funct3. -/
theorem funct3_cases (f : BitVec 3) :
    f = 0#3 ∨ f = 1#3 ∨ f = 2#3 ∨ f = 3#3 ∨ f = 4#3 ∨ f = 5#3 ∨ f = 6#3 ∨ f = 7#3 := by
  revert f; decide

end Sys2Proof
end

