-- ==== Sys2Proof/Laws/Memory.lean ====
section
/-! SUPPORT. The laws of the Memory unit's data: read after write, what a masked write and a fill change, and that every operation keeps the canonical form. -/

namespace Sys2Proof.Machine

/-! ## The list of listed bytes -/

theorem lookupCell_insertCell (a : Nat) (b : Byte) (l : List Host.Cell) (n : Nat) :
    lookupCell (insertCell a b l) n = if n = a then some b else lookupCell l n := by
  induction l with
  | nil => simp [insertCell, lookupCell, eq_comm]
  | cons c l ih =>
    obtain ⟨k, d⟩ := c
    simp only [insertCell]
    split_ifs <;> simp only [lookupCell, ih] <;> split_ifs <;> first | rfl | omega

theorem lookupCell_eraseCell (a : Nat) (l : List Host.Cell) (n : Nat) :
    lookupCell (eraseCell a l) n = if n = a then none else lookupCell l n := by
  induction l with
  | nil => simp [eraseCell, lookupCell]
  | cons c l ih =>
    obtain ⟨k, d⟩ := c
    simp only [eraseCell]
    split_ifs <;> simp only [lookupCell, ih] <;> split_ifs <;> first | rfl | omega

/-- Rising from a higher bound is rising from a lower one. -/
theorem risingFrom_mono {lo lo' : Nat} (hle : lo' ≤ lo) {l : List Host.Cell} (h : risingFrom lo l = true) :
    risingFrom lo' l = true := by
  cases l with
  | nil => rfl
  | cons c l =>
    simp only [risingFrom, Bool.and_eq_true, decide_eq_true_eq] at *
    exact ⟨by omega, h.2⟩

theorem risingFrom_eraseCell (a : Nat) {lo : Nat} {l : List Host.Cell} (h : risingFrom lo l = true) :
    risingFrom lo (eraseCell a l) = true := by
  induction l generalizing lo with
  | nil => rfl
  | cons c l ih =>
    obtain ⟨k, d⟩ := c
    simp only [risingFrom, Bool.and_eq_true, decide_eq_true_eq] at h
    simp only [eraseCell]
    split_ifs
    · exact risingFrom_mono (by omega) (ih h.2)
    · simp [risingFrom, h.1, ih h.2]

theorem risingFrom_insertCell {a : Nat} (b : Byte) {lo : Nat} (ha : lo ≤ a) {l : List Host.Cell}
    (h : risingFrom lo l = true) : risingFrom lo (insertCell a b l) = true := by
  induction l generalizing lo with
  | nil => simp [insertCell, risingFrom, ha]
  | cons c l ih =>
    obtain ⟨k, d⟩ := c
    simp only [risingFrom, Bool.and_eq_true, decide_eq_true_eq] at h
    simp only [insertCell]
    split_ifs with h1 h2
    · simp [risingFrom, ha, h.2, show a + 1 ≤ k by omega]
    · subst h2; simp [risingFrom, ha, h.2]
    · simp [risingFrom, h.1, ih (show k + 1 ≤ a by omega) h.2]

theorem all_insertCell {p : Host.Cell → Bool} {a : Nat} {b : Byte} (hp : p (a, b) = true) {l : List Host.Cell}
    (h : l.all p = true) : (insertCell a b l).all p = true := by
  induction l with
  | nil => simp [insertCell, hp]
  | cons c l ih =>
    obtain ⟨k, d⟩ := c
    simp only [List.all_cons, Bool.and_eq_true] at h
    simp only [insertCell]
    split_ifs
    · simp only [List.all_cons, hp, h.1, h.2, Bool.and_self]
    · simp only [List.all_cons, hp, h.2, Bool.and_self]
    · simp only [List.all_cons, h.1, ih h.2, Bool.and_self]

theorem all_eraseCell {p : Host.Cell → Bool} (a : Nat) {l : List Host.Cell}
    (h : l.all p = true) : (eraseCell a l).all p = true := by
  induction l with
  | nil => simp [eraseCell]
  | cons c l ih =>
    obtain ⟨k, d⟩ := c
    simp only [List.all_cons, Bool.and_eq_true] at h
    simp only [eraseCell]
    split_ifs
    · exact ih h.2
    · simp only [List.all_cons, h.1, ih h.2, Bool.and_self]

namespace Memory

variable (m : Memory)

/-! ## Construction -/

/-- Every memory has a size the spec admits (R32). -/
theorem size_mod : m.size % 4 = 0 := m.memSize.property.1
theorem size_le : m.size ≤ Config.addressSpace := m.memSize.property.2

/-- A memory of a legal size can be constructed: it has that size, reads as unwritten everywhere, and is canonical. -/
theorem construct_legal {n : Nat} (h : n % 4 = 0 ∧ n ≤ Config.addressSpace) :
    ∃ m, construct n = some m ∧ m.size = n ∧ (∀ a, m.byte a = Params.unlistedByte) ∧ m.wf = true :=
  ⟨_, dif_pos h, rfl, fun _ => rfl, rfl⟩

/-- One of any other size cannot (R32, U11). -/
theorem construct_illegal {n : Nat} (h : ¬ (n % 4 = 0 ∧ n ≤ Config.addressSpace)) : construct n = none := dif_neg h

/-! ## One byte -/

@[simp] theorem size_setByte (a : Nat) (b : Byte) : (m.setByte a b).size = m.size := rfl

/-- Read after write, for one byte: the byte written, and every other byte as before. -/
theorem byte_setByte (a : Nat) (b : Byte) (n : Nat) :
    (m.setByte a b).byte n = if n = a then b else m.byte n := by
  unfold setByte byte
  split_ifs with hb hn <;> simp_all [lookupCell_insertCell, lookupCell_eraseCell]

/-- What the canonical form says, clause by clause. -/
theorem wf_iff : m.wf = true ↔ risingFrom 0 m.cells = true ∧
    m.cells.all (fun c => decide (c.1 < m.size) && c.2 != Params.unlistedByte) = true := by
  simp only [wf, Bool.and_eq_true]

/-- Writing a backed byte keeps the canonical form. -/
theorem wf_setByte {m : Memory} {a : Nat} (b : Byte) (ha : a < m.size) (h : m.wf = true) :
    (m.setByte a b).wf = true := by
  rw [wf_iff] at h ⊢
  rw [size_setByte]
  unfold setByte
  split_ifs with hb
  · exact ⟨risingFrom_eraseCell a h.1, all_eraseCell a h.2⟩
  · exact ⟨risingFrom_insertCell b (Nat.zero_le a) h.1, all_insertCell (by simp [ha, hb]) h.2⟩

/-! ## The masked write -/

@[simp] theorem size_writeLane (a : Nat) (v : Word) (mask : BitVec 4) (k : Nat) :
    (writeLane a v mask m k).size = m.size := by
  unfold writeLane; split <;> rfl

@[simp] theorem size_writeMasked (a : Nat) (v : Word) (mask : BitVec 4) :
    (m.writeMasked a v mask).size = m.size := by
  simp [writeMasked]

theorem byte_writeLane (a : Nat) (v : Word) (mask : BitVec 4) (k n : Nat) :
    (writeLane a v mask m k).byte n
      = if n = a + k ∧ mask.getLsbD k = true then v.extractLsb' (8 * k) 8 else m.byte n := by
  unfold writeLane
  split_ifs with h1 h2 h2 <;> simp_all [byte_setByte]

/-- A masked write, byte by byte: lane `k` of the value at `a + k` where the mask selects it, else as before. -/
theorem byte_writeMasked (a : Nat) (v : Word) (mask : BitVec 4) (n : Nat) :
    (m.writeMasked a v mask).byte n
      = if a ≤ n ∧ n < a + 4 ∧ mask.getLsbD (n - a) = true then v.extractLsb' (8 * (n - a)) 8 else m.byte n := by
  simp only [writeMasked, List.foldl_cons, List.foldl_nil, byte_writeLane]
  by_cases h : a ≤ n ∧ n < a + 4
  · obtain ⟨k, rfl⟩ : ∃ k, n = a + k := ⟨n - a, by omega⟩
    have hk : k = 0 ∨ k = 1 ∨ k = 2 ∨ k = 3 := by omega
    rcases hk with rfl | rfl | rfl | rfl <;> simp
  · rw [if_neg (by omega), if_neg (by omega), if_neg (by omega), if_neg (by omega), if_neg (by omega)]

theorem wf_writeLane {m : Memory} {a : Nat} (v : Word) (mask : BitVec 4) {k : Nat} (hk : a + k < m.size)
    (h : m.wf = true) : (writeLane a v mask m k).wf = true := by
  unfold writeLane
  split
  · exact wf_setByte _ hk h
  · exact h

/-- A masked write to a backed word keeps the canonical form. -/
theorem wf_writeMasked {m : Memory} {a : Nat} (v : Word) (mask : BitVec 4) (ha : a + 4 ≤ m.size)
    (h : m.wf = true) : (m.writeMasked a v mask).wf = true := by
  simp only [writeMasked, List.foldl_cons, List.foldl_nil]
  refine wf_writeLane v mask ?_ (wf_writeLane v mask ?_ (wf_writeLane v mask ?_ (wf_writeLane v mask ?_ h)))
  all_goals (try simp only [size_writeLane]); omega

/-! ## Words -/

/-- Memories that agree on the four bytes of a word agree on the word. -/
theorem word_congr {m m' : Memory} {a a' : Nat} (h : ∀ k < 4, m.byte (a + k) = m'.byte (a' + k)) :
    m.word a = m'.word a' := by
  have h0 := h 0 (by omega)
  have h1 := h 1 (by omega)
  have h2 := h 2 (by omega)
  have h3 := h 3 (by omega)
  simp only [Nat.add_zero] at h0
  simp only [word, h0, h1, h2, h3]

/-- Byte lane `k` of a word is the byte at its address plus `k` (R33). -/
theorem extract_word (a k : Nat) (hk : k < 4) : (m.word a).extractLsb' (8 * k) 8 = m.byte (a + k) := by
  have hk' : k = 0 ∨ k = 1 ∨ k = 2 ∨ k = 3 := by omega
  apply BitVec.eq_of_getLsbD_eq
  intro i hi
  rcases hk' with rfl | rfl | rfl | rfl <;>
    simp only [word, BitVec.getLsbD_extractLsb', BitVec.getLsbD_append, hi, decide_true, Bool.true_and,
      Nat.mul_zero, Nat.zero_add, Nat.add_zero, if_true]
  all_goals split_ifs <;> first | omega | (congr 1; omega)

/-- A word is determined by its four byte lanes. -/
theorem word_ext {u v : Word} (h : ∀ k < 4, u.extractLsb' (8 * k) 8 = v.extractLsb' (8 * k) 8) : u = v := by
  apply BitVec.eq_of_getLsbD_eq
  intro i hi
  have hh := congrArg (fun (b : Byte) => b.getLsbD (i % 8)) (h (i / 8) (by omega))
  have e : 8 * (i / 8) + i % 8 = i := by omega
  have hlt : i % 8 < 8 := by omega
  simpa [BitVec.getLsbD_extractLsb', e, hlt] using hh

/-- A full write reads back. -/
theorem word_writeMasked_same (a : Nat) (v : Word) : (m.writeMasked a v 0b1111#4).word a = v := by
  apply word_ext
  intro k hk
  rw [extract_word _ _ _ hk, byte_writeMasked]
  have hk' : k = 0 ∨ k = 1 ∨ k = 2 ∨ k = 3 := by omega
  rcases hk' with rfl | rfl | rfl | rfl <;> simp

/-- A write leaves every word alone that does not overlap it. -/
theorem word_writeMasked_ne {a b : Nat} (v : Word) (mask : BitVec 4) (h : b + 4 ≤ a ∨ a + 4 ≤ b) :
    (m.writeMasked a v mask).word b = m.word b := by
  apply word_congr
  intro k hk
  rw [byte_writeMasked, if_neg (by omega)]

/-! ## Fill -/

@[simp] theorem size_fillWords (a : Nat) (v : Word) (n : Nat) : (m.fillWords a v n).size = m.size := by
  induction n with
  | zero => rfl
  | succ n ih => simp [fillWords, ih]

theorem word_fillWords (a : Nat) (v : Word) {n k : Nat} (hk : k < n) :
    (m.fillWords a v n).word (a + 4 * k) = v := by
  induction n with
  | zero => omega
  | succ n ih =>
    rcases Nat.lt_succ_iff_lt_or_eq.mp hk with h | rfl
    · rw [fillWords, word_writeMasked_ne _ _ _ (by omega), ih h]
    · rw [fillWords, word_writeMasked_same]

theorem byte_fillWords_outside (a : Nat) (v : Word) (n b : Nat) (h : b < a ∨ a + 4 * n ≤ b) :
    (m.fillWords a v n).byte b = m.byte b := by
  induction n with
  | zero => rfl
  | succ n ih => rw [fillWords, byte_writeMasked, if_neg (by omega), ih (by omega)]

theorem wf_fillWords {m : Memory} {a : Nat} (v : Word) {n : Nat} (ha : a + 4 * n ≤ m.size) (h : m.wf = true) :
    (m.fillWords a v n).wf = true := by
  induction n with
  | zero => exact h
  | succ n ih => exact wf_writeMasked _ _ (by simp only [size_fillWords]; omega) (ih (by omega))

end Memory

/-- The memory of the state after reset is in canonical form. -/
theorem reset_mem_wf : State.reset.mem.wf = true := by decide

end Sys2Proof.Machine
end

