-- ==== Sys2Proof/Laws/State.lean ====
section
/-! SUPPORT. One lemma per field per update of the state, so that no later proof unfolds a record update. -/

namespace Sys2Proof.Machine.State

variable (s : State)

/-! ## writeReg -/

@[simp] theorem writeReg_pc (r : RegIdx) (v : Word) : (s.writeReg r v).pc = s.pc := by
  unfold writeReg; split <;> rfl
@[simp] theorem writeReg_ir (r : RegIdx) (v : Word) : (s.writeReg r v).ir = s.ir := by
  unfold writeReg; split <;> rfl
@[simp] theorem writeReg_run (r : RegIdx) (v : Word) : (s.writeReg r v).run = s.run := by
  unfold writeReg; split <;> rfl
@[simp] theorem writeReg_mem (r : RegIdx) (v : Word) : (s.writeReg r v).mem = s.mem := by
  unfold writeReg; split <;> rfl
@[simp] theorem writeReg_lastOutcome (r : RegIdx) (v : Word) : (s.writeReg r v).lastOutcome = s.lastOutcome := by
  unfold writeReg; split <;> rfl
@[simp] theorem writeReg_diags (r : RegIdx) (v : Word) : (s.writeReg r v).diags = s.diags := by
  unfold writeReg; split <;> rfl
theorem writeReg_zero (v : Word) : s.writeReg 0#5 v = s := by simp [writeReg]
/-- The write port: what every read sees afterwards (R12, R14). -/
theorem writeReg_readReg (r : RegIdx) (v : Word) (q : RegIdx) :
    (s.writeReg r v).readReg q = if q = r ∧ r ≠ 0#5 then v else s.readReg q := by
  by_cases hr : r = 0#5
  · simp [writeReg, hr]
  · by_cases hq : q = r
    · simp [writeReg, readReg, hr, hq]
    · have hn : r.toNat ≠ q.toNat := fun e => hq (BitVec.eq_of_toNat_eq e.symm)
      simp [writeReg, readReg, hr, hq, Vector.getElem_set_ne _ _ hn]

/-! ## emit -/

@[simp] theorem emit_x (d : Diag) : (s.emit d).x = s.x := rfl
@[simp] theorem emit_pc (d : Diag) : (s.emit d).pc = s.pc := rfl
@[simp] theorem emit_ir (d : Diag) : (s.emit d).ir = s.ir := rfl
@[simp] theorem emit_run (d : Diag) : (s.emit d).run = s.run := rfl
@[simp] theorem emit_mem (d : Diag) : (s.emit d).mem = s.mem := rfl
@[simp] theorem emit_lastOutcome (d : Diag) : (s.emit d).lastOutcome = s.lastOutcome := rfl
@[simp] theorem emit_diags (d : Diag) : (s.emit d).diags = d :: s.diags := rfl
@[simp] theorem emit_readReg (d : Diag) (q : RegIdx) : (s.emit d).readReg q = s.readReg q := rfl

/-! ## setMem -/

@[simp] theorem setMem_x (m : Memory) : (s.setMem m).x = s.x := rfl
@[simp] theorem setMem_pc (m : Memory) : (s.setMem m).pc = s.pc := rfl
@[simp] theorem setMem_ir (m : Memory) : (s.setMem m).ir = s.ir := rfl
@[simp] theorem setMem_run (m : Memory) : (s.setMem m).run = s.run := rfl
@[simp] theorem setMem_mem (m : Memory) : (s.setMem m).mem = m := rfl
@[simp] theorem setMem_lastOutcome (m : Memory) : (s.setMem m).lastOutcome = s.lastOutcome := rfl
@[simp] theorem setMem_diags (m : Memory) : (s.setMem m).diags = s.diags := rfl
@[simp] theorem setMem_readReg (m : Memory) (q : RegIdx) : (s.setMem m).readReg q = s.readReg q := rfl

/-! ## setIr -/

@[simp] theorem setIr_x (w : Word) : (s.setIr w).x = s.x := rfl
@[simp] theorem setIr_pc (w : Word) : (s.setIr w).pc = s.pc := rfl
@[simp] theorem setIr_ir (w : Word) : (s.setIr w).ir = w := rfl
@[simp] theorem setIr_run (w : Word) : (s.setIr w).run = s.run := rfl
@[simp] theorem setIr_mem (w : Word) : (s.setIr w).mem = s.mem := rfl
@[simp] theorem setIr_lastOutcome (w : Word) : (s.setIr w).lastOutcome = s.lastOutcome := rfl
@[simp] theorem setIr_diags (w : Word) : (s.setIr w).diags = s.diags := rfl
@[simp] theorem setIr_readReg (w : Word) (q : RegIdx) : (s.setIr w).readReg q = s.readReg q := rfl

/-! ## commit -/

@[simp] theorem commit_x (p : Word) : (s.commit p).x = s.x := rfl
@[simp] theorem commit_pc (p : Word) : (s.commit p).pc = p := rfl
@[simp] theorem commit_ir (p : Word) : (s.commit p).ir = s.ir := rfl
@[simp] theorem commit_run (p : Word) : (s.commit p).run = s.run := rfl
@[simp] theorem commit_mem (p : Word) : (s.commit p).mem = s.mem := rfl
@[simp] theorem commit_lastOutcome (p : Word) : (s.commit p).lastOutcome = some .ok := rfl
@[simp] theorem commit_diags (p : Word) : (s.commit p).diags = s.diags := rfl
@[simp] theorem commit_readReg (p : Word) (q : RegIdx) : (s.commit p).readReg q = s.readReg q := rfl

/-! ## halt -/

@[simp] theorem halt_x (o : TickOutcome) : (s.halt o).x = s.x := rfl
@[simp] theorem halt_pc (o : TickOutcome) : (s.halt o).pc = s.pc := rfl
@[simp] theorem halt_ir (o : TickOutcome) : (s.halt o).ir = s.ir := rfl
@[simp] theorem halt_run (o : TickOutcome) : (s.halt o).run = .halted := rfl
@[simp] theorem halt_mem (o : TickOutcome) : (s.halt o).mem = s.mem := rfl
@[simp] theorem halt_lastOutcome (o : TickOutcome) : (s.halt o).lastOutcome = some o := rfl
@[simp] theorem halt_diags (o : TickOutcome) : (s.halt o).diags = s.diags := rfl
@[simp] theorem halt_readReg (o : TickOutcome) (q : RegIdx) : (s.halt o).readReg q = s.readReg q := rfl

/-! ## raiseBreak -/

@[simp] theorem raiseBreak_x : (s.raiseBreak).x = s.x := rfl
@[simp] theorem raiseBreak_pc : (s.raiseBreak).pc = s.pc := rfl
@[simp] theorem raiseBreak_ir : (s.raiseBreak).ir = s.ir := rfl
@[simp] theorem raiseBreak_run : (s.raiseBreak).run = .halted := rfl
@[simp] theorem raiseBreak_mem : (s.raiseBreak).mem = s.mem := rfl
@[simp] theorem raiseBreak_lastOutcome : (s.raiseBreak).lastOutcome = some .brk := rfl
@[simp] theorem raiseBreak_diags : (s.raiseBreak).diags = s.diags := rfl
@[simp] theorem raiseBreak_readReg (q : RegIdx) : (s.raiseBreak).readReg q = s.readReg q := rfl

/-! ## raiseFatal -/

@[simp] theorem raiseFatal_x : (s.raiseFatal).x = s.x := rfl
@[simp] theorem raiseFatal_pc : (s.raiseFatal).pc = s.pc := rfl
@[simp] theorem raiseFatal_ir : (s.raiseFatal).ir = s.ir := rfl
@[simp] theorem raiseFatal_run : (s.raiseFatal).run = .halted := rfl
@[simp] theorem raiseFatal_mem : (s.raiseFatal).mem = s.mem := rfl
@[simp] theorem raiseFatal_lastOutcome : (s.raiseFatal).lastOutcome = some (.fatal (opcodeOf s.ir) s.pc) := rfl
@[simp] theorem raiseFatal_diags : (s.raiseFatal).diags = s.diags := rfl
@[simp] theorem raiseFatal_readReg (q : RegIdx) : (s.raiseFatal).readReg q = s.readReg q := rfl

/-! ## hostReset -/

@[simp] theorem hostReset_x (e w : Word) : (s.hostReset e w).x = Vector.replicate Config.nregs 0#32 := rfl
@[simp] theorem hostReset_pc (e w : Word) : (s.hostReset e w).pc = e := rfl
@[simp] theorem hostReset_ir (e w : Word) : (s.hostReset e w).ir = w := rfl
@[simp] theorem hostReset_run (e w : Word) : (s.hostReset e w).run = .running := rfl
@[simp] theorem hostReset_mem (e w : Word) : (s.hostReset e w).mem = s.mem := rfl
@[simp] theorem hostReset_lastOutcome (e w : Word) : (s.hostReset e w).lastOutcome = none := rfl
@[simp] theorem hostReset_diags (e w : Word) : (s.hostReset e w).diags = s.diags := rfl
@[simp] theorem hostReset_readReg (e w : Word) (q : RegIdx) : (s.hostReset e w).readReg q = 0#32 := by
  simp [readReg, Config.nregs]

/-- A read depends on the register file alone. -/
theorem readReg_congr {s t : State} (h : s.x = t.x) (q : RegIdx) : s.readReg q = t.readReg q := by
  simp [readReg, h]

/-- Register files that read alike are equal. -/
theorem x_ext {s t : State} (h : ∀ q, s.readReg q = t.readReg q) : s.x = t.x := by
  apply Vector.ext
  intro i hi
  have := h (BitVec.ofNat 5 i)
  have hm : i % 32 = i := Nat.mod_eq_of_lt hi
  simpa [readReg, hm] using this

end Sys2Proof.Machine.State
end

