-- ==== Sys2Proof/Laws/Operands.lean ====
section
/-! SUPPORT. The laws of the load_store_unit: aligned base and lane as numbers, and what the Memory unit's read and write, the load path and the store path do, each said once. -/

namespace Sys2Proof.Machine

/-! ## Base and lane (R105) -/

theorem laneOf_toNat (addr : Word) : (laneOf addr).toNat = addr.toNat % 4 := by
  simp [laneOf]

theorem alignedBase_toNat (addr : Word) : (alignedBase addr).toNat = addr.toNat - addr.toNat % 4 := by
  have h : alignedBase addr = (addr >>> 2) <<< 2 := by
    apply BitVec.eq_of_getLsbD_eq
    intro i hi
    simp only [alignedBase, BitVec.getLsbD_and, BitVec.getLsbD_shiftLeft, BitVec.getLsbD_ushiftRight]
    interval_cases i <;> first | exact Bool.and_true _ | exact Bool.and_false _
  have hlt := addr.isLt
  rw [h]
  simp only [BitVec.toNat_shiftLeft, BitVec.toNat_ushiftRight, Nat.shiftLeft_eq, Nat.shiftRight_eq_div_pow]
  omega

/-- The aligned base is a multiple of 4, so only the bound of the contract check can fail (R106, R116). -/
theorem valid_alignedBase (m : Memory) (addr : Word) :
    m.Valid (alignedBase addr) ↔ addr.toNat - addr.toNat % 4 + 4 ≤ m.size := by
  unfold Memory.Valid
  rw [alignedBase_toNat]
  omega

/-- A target with bit 0 cleared, as a number (R130, R131). -/
theorem clearBit0_toNat (t : Word) : (clearBit0 t).toNat = t.toNat - t.toNat % 2 := by
  have h : clearBit0 t = (t >>> 1) <<< 1 := by
    apply BitVec.eq_of_getLsbD_eq
    intro i hi
    simp only [clearBit0, BitVec.getLsbD_and, BitVec.getLsbD_shiftLeft, BitVec.getLsbD_ushiftRight]
    interval_cases i <;> first | exact Bool.and_true _ | exact Bool.and_false _
  have hlt := t.isLt
  rw [h]
  simp only [BitVec.toNat_shiftLeft, BitVec.toNat_ushiftRight, Nat.shiftLeft_eq, Nat.shiftRight_eq_div_pow]
  omega

/-- The mask of a store selects lane `k` exactly when `k` is one of the access's bytes from its lane on (R116). -/
theorem storeMask_getLsbD (n : Width) (addr : Word) (k : Nat) (hk : k < 4) :
    (storeMask n addr).getLsbD k = decide (addr.toNat % 4 ≤ k ∧ k < addr.toNat % 4 + n.bytes) := by
  unfold storeMask
  rw [laneOf_toNat, BitVec.getLsbD_shiftLeft]
  have hl : addr.toNat % 4 < 4 := Nat.mod_lt _ (by omega)
  generalize addr.toNat % 4 = l at hl ⊢
  cases n <;> interval_cases l <;> interval_cases k <;> decide

/-- Lane `k` of the shifted value is byte `k - lane` of the value (R116). -/
theorem storeValue_lane (v addr : Word) (k : Nat) (hk : k < 4) (hl : addr.toNat % 4 ≤ k) :
    (storeValue v addr).extractLsb' (8 * k) 8 = v.extractLsb' (8 * (k - addr.toNat % 4)) 8 := by
  unfold storeValue
  rw [laneOf_toNat]
  apply BitVec.eq_of_getLsbD_eq
  intro i hi
  simp only [BitVec.getLsbD_extractLsb', BitVec.getLsbD_shiftLeft, hi, decide_true, Bool.true_and]
  rw [decide_eq_true (by omega), decide_eq_false (by omega)]
  simp only [Bool.not_false, Bool.true_and]
  congr 1
  omega

namespace State

variable (s : State)

/-! ## The Memory unit's read (R35, R36) -/

theorem memRead_valid {s : State} {a : Word} (h : s.mem.Valid a) : s.memRead a = (s.mem.word a.toNat, s) := if_pos h
theorem memRead_invalid {s : State} {a : Word} (h : ¬ s.mem.Valid a) : s.memRead a = (0#32, s.emit ⟨.read, a⟩) :=
  if_neg h
/-- A read changes nothing, or emits one diagnostic and changes nothing else. -/
theorem memRead_state (a : Word) : (s.memRead a).2 = s ∨ (s.memRead a).2 = s.emit ⟨.read, a⟩ := by
  unfold memRead; split
  · exact .inl rfl
  · exact .inr rfl
@[simp] theorem memRead_x (a : Word) : (s.memRead a).2.x = s.x := by unfold memRead; split <;> rfl
@[simp] theorem memRead_pc (a : Word) : (s.memRead a).2.pc = s.pc := by unfold memRead; split <;> rfl
@[simp] theorem memRead_ir (a : Word) : (s.memRead a).2.ir = s.ir := by unfold memRead; split <;> rfl
@[simp] theorem memRead_run (a : Word) : (s.memRead a).2.run = s.run := by unfold memRead; split <;> rfl
@[simp] theorem memRead_mem (a : Word) : (s.memRead a).2.mem = s.mem := by unfold memRead; split <;> rfl
@[simp] theorem memRead_lastOutcome (a : Word) : (s.memRead a).2.lastOutcome = s.lastOutcome := by
  unfold memRead; split <;> rfl
@[simp] theorem memRead_readReg (a : Word) (q : RegIdx) : (s.memRead a).2.readReg q = s.readReg q :=
  readReg_congr (memRead_x s a) q
theorem memRead_diags (a : Word) :
    (s.memRead a).2.diags = if s.mem.Valid a then s.diags else ⟨.read, a⟩ :: s.diags := by
  unfold memRead; split <;> rfl

/-! ## The Memory unit's write (R37, R38) -/

@[simp] theorem memWrite_x (a v : Word) (mask : BitVec 4) : (s.memWrite a v mask).x = s.x := by
  unfold memWrite; split <;> rfl
@[simp] theorem memWrite_pc (a v : Word) (mask : BitVec 4) : (s.memWrite a v mask).pc = s.pc := by
  unfold memWrite; split <;> rfl
@[simp] theorem memWrite_ir (a v : Word) (mask : BitVec 4) : (s.memWrite a v mask).ir = s.ir := by
  unfold memWrite; split <;> rfl
@[simp] theorem memWrite_run (a v : Word) (mask : BitVec 4) : (s.memWrite a v mask).run = s.run := by
  unfold memWrite; split <;> rfl
@[simp] theorem memWrite_lastOutcome (a v : Word) (mask : BitVec 4) :
    (s.memWrite a v mask).lastOutcome = s.lastOutcome := by
  unfold memWrite; split <;> rfl
@[simp] theorem memWrite_readReg (a v : Word) (mask : BitVec 4) (q : RegIdx) :
    (s.memWrite a v mask).readReg q = s.readReg q := readReg_congr (memWrite_x s a v mask) q
theorem memWrite_mem (a v : Word) (mask : BitVec 4) :
    (s.memWrite a v mask).mem = if s.mem.Valid a then s.mem.writeMasked a.toNat v mask else s.mem := by
  unfold memWrite; split <;> rfl
theorem memWrite_diags (a v : Word) (mask : BitVec 4) :
    (s.memWrite a v mask).diags = if s.mem.Valid a then s.diags else ⟨.write, a⟩ :: s.diags := by
  unfold memWrite; split <;> rfl
@[simp] theorem memWrite_size (a v : Word) (mask : BitVec 4) : (s.memWrite a v mask).mem.size = s.mem.size := by
  rw [memWrite_mem]; split <;> simp
/-- A write keeps the memory in canonical form. -/
theorem memWrite_wf {s : State} (h : s.mem.wf = true) (a v : Word) (mask : BitVec 4) :
    (s.memWrite a v mask).mem.wf = true := by
  rw [memWrite_mem]; split
  · exact Memory.wf_writeMasked _ _ (by rename_i hv; exact hv.2) h
  · exact h
/-- A write, byte by byte, for every address (R37 to R39). -/
theorem memWrite_byte (a v : Word) (mask : BitVec 4) (n : Nat) :
    (s.memWrite a v mask).mem.byte n
      = if s.mem.Valid a ∧ a.toNat ≤ n ∧ n < a.toNat + 4 ∧ mask.getLsbD (n - a.toNat) = true
        then v.extractLsb' (8 * (n - a.toNat)) 8 else s.mem.byte n := by
  rw [memWrite_mem]
  split
  · rename_i hv; rw [Memory.byte_writeMasked]; exact if_congr ⟨fun h => ⟨hv, h⟩, fun h => h.2⟩ rfl rfl
  · rename_i hv; rw [if_neg fun h => hv h.1]

/-! ## The load and store paths (R106, R116) -/

/-- The load path's state is the aligned read's. -/
theorem loadBits_state (addr : Word) (n : Width) : (s.loadBits addr n).2 = (s.memRead (alignedBase addr)).2 := rfl

/-- The load path, byte by byte: byte `j` of the access when it lies in the containing word and that word is backed, else 0
(R106, R107, R113). -/
theorem loadBits_byte (addr : Word) (n : Width) (j : Nat) (hj : j < n.bytes) :
    (s.loadBits addr n).1.extractLsb' (8 * j) 8
      = if addr.toNat - addr.toNat % 4 + 4 ≤ s.mem.size ∧ addr.toNat % 4 + j < 4
        then s.mem.byte (addr.toNat + j) else 0#8 := by
  unfold loadBits
  rw [laneOf_toNat]
  apply BitVec.eq_of_getLsbD_eq
  intro i hi
  have hb : 8 * j + i < n.bits := by unfold Width.bits; omega
  simp only [BitVec.getLsbD_extractLsb', BitVec.getLsbD_setWidth, BitVec.getLsbD_ushiftRight, hi, hb, decide_true,
    Bool.true_and]
  by_cases hv : addr.toNat - addr.toNat % 4 + 4 ≤ s.mem.size
  · rw [memRead_valid ((valid_alignedBase _ _).mpr hv), alignedBase_toNat]
    by_cases hl : addr.toNat % 4 + j < 4
    · have hx := congrArg (fun (b : Byte) => b.getLsbD i)
        (Memory.extract_word s.mem (addr.toNat - addr.toNat % 4) (addr.toNat % 4 + j) hl)
      simp only [BitVec.getLsbD_extractLsb', hi, decide_true, Bool.true_and] at hx
      rw [if_pos ⟨hv, hl⟩, show addr.toNat + j = addr.toNat - addr.toNat % 4 + (addr.toNat % 4 + j) by omega, ← hx]
      congr 1; omega
    · rw [if_neg (fun h => hl h.2), BitVec.getLsbD_of_ge _ _ (by omega)]; simp
  · rw [memRead_invalid (fun h => hv ((valid_alignedBase _ _).mp h)), if_neg (fun h => hv h.1)]; simp

/-- The store path, byte by byte, for every address: the bytes `addr` to `addr + n - 1` that lie in the containing
word, when that word is backed, and no other (R116, R117, R121). -/
theorem storeBits_byte (addr : Word) (n : Width) (v : Word) (b : Nat) :
    (s.storeBits addr n v).mem.byte b
      = if addr.toNat - addr.toNat % 4 + 4 ≤ s.mem.size ∧ addr.toNat ≤ b ∧ b < addr.toNat + n.bytes
            ∧ b < addr.toNat - addr.toNat % 4 + 4
        then v.extractLsb' (8 * (b - addr.toNat)) 8 else s.mem.byte b := by
  unfold storeBits
  rw [memWrite_byte]
  simp only [valid_alignedBase, alignedBase_toNat]
  by_cases h1 : addr.toNat - addr.toNat % 4 ≤ b ∧ b < addr.toNat - addr.toNat % 4 + 4
  · simp only [storeMask_getLsbD n addr (b - (addr.toNat - addr.toNat % 4)) (by omega), decide_eq_true_eq]
    by_cases h2 : addr.toNat ≤ b ∧ b < addr.toNat + n.bytes ∧ addr.toNat - addr.toNat % 4 + 4 ≤ s.mem.size
    · rw [if_pos (by omega), if_pos (by omega), storeValue_lane _ _ _ (by omega) (by omega)]
      congr 1
      omega
    · rw [if_neg (by omega), if_neg (by omega)]
  · rw [if_neg (by omega), if_neg (by omega)]

/-! ## The shapes the meanings share -/

@[simp] theorem writeAndGo_pc (rd : RegIdx) (v p : Word) : (s.writeAndGo rd v p).pc = p := rfl
@[simp] theorem writeAndGo_ir (rd : RegIdx) (v p : Word) : (s.writeAndGo rd v p).ir = s.ir := by simp [writeAndGo]
@[simp] theorem writeAndGo_run (rd : RegIdx) (v p : Word) : (s.writeAndGo rd v p).run = s.run := by simp [writeAndGo]
@[simp] theorem writeAndGo_mem (rd : RegIdx) (v p : Word) : (s.writeAndGo rd v p).mem = s.mem := by simp [writeAndGo]
@[simp] theorem writeAndGo_diags (rd : RegIdx) (v p : Word) : (s.writeAndGo rd v p).diags = s.diags := by
  simp [writeAndGo]
@[simp] theorem writeAndGo_lastOutcome (rd : RegIdx) (v p : Word) : (s.writeAndGo rd v p).lastOutcome = some .ok := rfl

@[simp] theorem branchTo_pc (b : Bool) (offset : BitVec 13) :
    (s.branchTo b offset).pc = if b then s.pc + sext13 offset else s.pcPlus4 := rfl
@[simp] theorem branchTo_ir (b : Bool) (offset : BitVec 13) : (s.branchTo b offset).ir = s.ir := rfl
@[simp] theorem branchTo_run (b : Bool) (offset : BitVec 13) : (s.branchTo b offset).run = s.run := rfl
@[simp] theorem branchTo_mem (b : Bool) (offset : BitVec 13) : (s.branchTo b offset).mem = s.mem := rfl
@[simp] theorem branchTo_diags (b : Bool) (offset : BitVec 13) : (s.branchTo b offset).diags = s.diags := rfl
@[simp] theorem branchTo_readReg (b : Bool) (offset : BitVec 13) (q : RegIdx) :
    (s.branchTo b offset).readReg q = s.readReg q := rfl

@[simp] theorem loadReg_pc (n : Width) (extend : BitVec n.bits → Word) (rd rs1 : RegIdx) (imm : BitVec 12) :
    (s.loadReg n extend rd rs1 imm).pc = s.pcPlus4 := rfl
@[simp] theorem loadReg_ir (n : Width) (extend : BitVec n.bits → Word) (rd rs1 : RegIdx) (imm : BitVec 12) :
    (s.loadReg n extend rd rs1 imm).ir = s.ir := by simp [loadReg, loadBits_state]
@[simp] theorem loadReg_run (n : Width) (extend : BitVec n.bits → Word) (rd rs1 : RegIdx) (imm : BitVec 12) :
    (s.loadReg n extend rd rs1 imm).run = s.run := by simp [loadReg, loadBits_state]
@[simp] theorem loadReg_mem (n : Width) (extend : BitVec n.bits → Word) (rd rs1 : RegIdx) (imm : BitVec 12) :
    (s.loadReg n extend rd rs1 imm).mem = s.mem := by simp [loadReg, loadBits_state]

@[simp] theorem storeReg_pc (n : Width) (rs2 rs1 : RegIdx) (imm : BitVec 12) :
    (s.storeReg n rs2 rs1 imm).pc = s.pcPlus4 := rfl
@[simp] theorem storeReg_ir (n : Width) (rs2 rs1 : RegIdx) (imm : BitVec 12) : (s.storeReg n rs2 rs1 imm).ir = s.ir := by
  simp [storeReg, storeBits]
@[simp] theorem storeReg_run (n : Width) (rs2 rs1 : RegIdx) (imm : BitVec 12) :
    (s.storeReg n rs2 rs1 imm).run = s.run := by simp [storeReg, storeBits]
@[simp] theorem storeReg_size (n : Width) (rs2 rs1 : RegIdx) (imm : BitVec 12) :
    (s.storeReg n rs2 rs1 imm).mem.size = s.mem.size := by simp [storeReg, storeBits]
@[simp] theorem storeReg_readReg (n : Width) (rs2 rs1 : RegIdx) (imm : BitVec 12) (q : RegIdx) :
    (s.storeReg n rs2 rs1 imm).readReg q = s.readReg q := by simp [storeReg, storeBits]

end State

end Sys2Proof.Machine
end

