-- ==== Sys2Proof/Laws/Exec.lean ====
section
/-! SUPPORT. What one instruction and one tick can do, said once: the shapes of the next state, and the cases of a step. -/

namespace Sys2Proof.Machine

/-- The five shapes of an instruction's next state: Break, a bare commit, a register write and a commit, the same after
a data read, and a data write and a commit. -/
inductive ExecShape (s : State) : Instr → State → Prop where
  | brk : ExecShape s .ebreak s.raiseBreak
  | go {i : Instr} (nextPc : Word) (hi : i ≠ .ebreak) : ExecShape s i (s.commit nextPc)
  | write {i : Instr} (rd : RegIdx) (v nextPc : Word) (hi : i ≠ .ebreak) : ExecShape s i ((s.writeReg rd v).commit nextPc)
  | load {i : Instr} (rd : RegIdx) (addr v : Word) (hi : i ≠ .ebreak) :
      ExecShape s i (((s.memRead (alignedBase addr)).2.writeReg rd v).commit s.pcPlus4)
  | store {i : Instr} (addr v : Word) (mask : BitVec 4) (hi : i ≠ .ebreak) :
      ExecShape s i ((s.memWrite (alignedBase addr) v mask).commit s.pcPlus4)

/-- Every instruction completes, in one of the five shapes. -/
theorem exec_shape (i : Instr) (s : State) : ∃ t, exec i s = .next t ∧ ExecShape s i t := by
  cases i with
  | ebreak => exact ⟨_, rfl, .brk⟩
  | lb | lh | lw | lbu | lhu => exact ⟨_, rfl, .load _ _ _ (by simp)⟩
  | sb | sh | sw => exact ⟨_, rfl, .store _ _ _ (by simp)⟩
  | lui | auipc | jal | jalr => exact ⟨_, rfl, .write _ _ _ (by simp)⟩
  | beq | bne | blt | bge | bltu | bgeu | systemIgnored => exact ⟨_, rfl, .go _ (by simp)⟩
  | add | sub | sll | slt | sltu | xor | srl | sra | or | and => exact ⟨_, rfl, .write _ _ _ (by simp)⟩
  | addi | slti | sltiu | xori | ori | andi | slli | srli | srai => exact ⟨_, rfl, .write _ _ _ (by simp)⟩

/-- An instruction's next state has one of the five shapes. -/
theorem shape_of_exec {i : Instr} {s t : State} (h : exec i s = .next t) : ExecShape s i t := by
  obtain ⟨u, hu, hs⟩ := exec_shape i s
  rw [hu] at h
  cases h
  exact hs

/-! ## The fetch -/

@[simp] theorem fetch_x (s : State) : s.fetch.2.x = s.x := by simp [State.fetch]
@[simp] theorem fetch_pc (s : State) : s.fetch.2.pc = s.pc := by simp [State.fetch]
@[simp] theorem fetch_ir (s : State) : s.fetch.2.ir = s.fetch.1 := rfl
@[simp] theorem fetch_run (s : State) : s.fetch.2.run = s.run := by simp [State.fetch]
@[simp] theorem fetch_mem (s : State) : s.fetch.2.mem = s.mem := by simp [State.fetch]
@[simp] theorem fetch_lastOutcome (s : State) : s.fetch.2.lastOutcome = s.lastOutcome := by simp [State.fetch]
@[simp] theorem fetch_readReg (s : State) (q : RegIdx) : s.fetch.2.readReg q = s.readReg q :=
  State.readReg_congr (fetch_x s) q
theorem fetch_diags (s : State) :
    s.fetch.2.diags = if s.mem.Valid s.pc then s.diags else ⟨.read, s.pc⟩ :: s.diags := State.memRead_diags s s.pc
theorem fetch_word (s : State) : s.fetch.1 = if s.mem.Valid s.pc then s.mem.word s.pc.toNat else 0#32 := by
  unfold State.fetch State.memRead; split <;> rfl

/-! ## The tick -/

/-- What a step that answers a next state did: the core was running, and the fetched word was an instruction, which was
executed, or one of the two classes that end Fatal (R92). -/
theorem step_cases {s t : State} (h : step s = .next t) :
    s.run = .running ∧
      ((∃ i, decode s.fetch.1 = .instr i ∧ exec i s.fetch.2 = .next t) ∨
        ((decode s.fetch.1 = .reservedSubop ∨ decode s.fetch.1 = .illegalOpcode) ∧ t = s.fetch.2.raiseFatal)) := by
  unfold step tick tickUnder at h
  split at h
  · refine ⟨by assumption, ?_⟩
    unfold executeWord at h
    split at h
    · exact .inl ⟨_, by assumption, h⟩
    · cases h; exact .inr ⟨.inl (by assumption), rfl⟩
    · cases h; exact .inr ⟨.inr (by assumption), rfl⟩
  · cases h

end Sys2Proof.Machine
end

