-- ==== Sys2Proof/Laws/Numbers.lean ====
section
/-! SUPPORT. The same operations as numbers: sums, quotients and powers of two instead of operations on bits. -/

namespace Sys2Proof.Machine

/-! ## Bytes, words and masks -/

/-- A word as the little-endian sum of its bytes (R33). -/
theorem Memory.word_toNat (m : Memory) (a : Nat) :
    (m.word a).toNat = (m.byte a).toNat + 256 * (m.byte (a + 1)).toNat + 65536 * (m.byte (a + 2)).toNat
      + 16777216 * (m.byte (a + 3)).toNat := by
  have h0 := (m.byte a).isLt
  have h1 := (m.byte (a + 1)).isLt
  have h2 := (m.byte (a + 2)).isLt
  unfold Memory.word
  simp only [BitVec.toNat_append]
  rw [← Nat.shiftLeft_add_eq_or_of_lt (by omega), ← Nat.shiftLeft_add_eq_or_of_lt (by omega),
    ← Nat.shiftLeft_add_eq_or_of_lt (by omega)]
  simp only [Nat.shiftLeft_eq]
  omega

/-- Byte `i` of a word, as a quotient. -/
theorem extract_byte (v : Word) (i : Nat) : v.extractLsb' (8 * i) 8 = BitVec.ofNat 8 (v.toNat / 256 ^ i) := by
  apply BitVec.eq_of_toNat_eq
  simp [BitVec.extractLsb'_toNat, Nat.shiftRight_eq_div_pow, Nat.pow_mul]

/-- Bit `i` of a mask, as a quotient. -/
theorem mask_bit (mask : BitVec 4) (i : Nat) : mask.getLsbD i = true ↔ mask.toNat / 2 ^ i % 2 = 1 := by
  rw [BitVec.getLsbD, Nat.testBit_eq_decide_div_mod_eq]
  simp

/-! ## Addresses -/

theorem State.pcPlus4_ofNat (s : State) : s.pcPlus4 = BitVec.ofNat 32 (s.pc.toNat + 4) := by
  apply BitVec.eq_of_toNat_eq
  simp [State.pcPlus4]

/-- Adding a sign-extended value adds the integer it stands for (R68, R158). -/
theorem add_signExtend (a : Word) {n : Nat} (b : BitVec n) :
    a + b.signExtend 32 = BitVec.ofInt 32 (a.toNat + b.toInt) := by
  rw [BitVec.ofInt_add]
  simp [BitVec.signExtend]

/-- Clearing bit 0 of a sum of integers (R130, R131). -/
theorem clearBit0_ofInt (z : Int) : clearBit0 (BitVec.ofInt 32 z) = BitVec.ofInt 32 (2 * (z / 2)) := by
  apply BitVec.eq_of_toNat_eq
  rw [clearBit0_toNat]
  simp only [BitVec.toNat_ofInt]
  omega

theorem alignedBase_ofNat (addr : Word) : alignedBase addr = BitVec.ofNat 32 (addr.toNat - addr.toNat % 4) := by
  apply BitVec.eq_of_toNat_eq
  have := addr.isLt
  rw [alignedBase_toNat]
  simp
  omega

/-! ## The alu (R146) -/

theorem shiftAmount_eq (b : Word) : shiftAmount b = b.toNat % 32 := by simp [shiftAmount]

theorem alu_add (a b : Word) : alu .add a b = BitVec.ofNat 32 (a.toNat + b.toNat) := by
  apply BitVec.eq_of_toNat_eq
  simp [alu]

theorem alu_sub (a b : Word) : alu .sub a b = BitVec.ofInt 32 ((a.toNat : Int) - b.toNat) := by
  apply BitVec.eq_of_toNat_eq
  have := a.isLt
  have := b.isLt
  simp [alu]
  omega

theorem alu_sll (a b : Word) : alu .sll a b = BitVec.ofNat 32 (a.toNat * 2 ^ (b.toNat % 32)) := by
  apply BitVec.eq_of_toNat_eq
  simp [alu, shiftAmount_eq, Nat.shiftLeft_eq]

theorem alu_srl (a b : Word) : alu .srl a b = BitVec.ofNat 32 (a.toNat / 2 ^ (b.toNat % 32)) := by
  apply BitVec.eq_of_toNat_eq
  simp [alu, shiftAmount_eq, Nat.shiftRight_eq_div_pow]
  exact (Nat.mod_eq_of_lt (lt_of_le_of_lt (Nat.div_le_self _ _) a.isLt)).symm

/-- An arithmetic right shift is floor division (R155). -/
theorem alu_sra (a b : Word) : alu .sra a b = BitVec.ofInt 32 (a.toInt / 2 ^ (b.toNat % 32)) := by
  apply BitVec.eq_of_toInt_eq
  simp only [alu, shiftAmount_eq, BitVec.toInt_sshiftRight, BitVec.toInt_ofInt]
  rw [Int.shiftRight_eq_div_pow]
  have hp : (0 : Int) < 2 ^ (b.toNat % 32) := by positivity
  have hlt := a.toInt_lt
  have hle := a.le_toInt
  norm_num at hlt hle
  have hlow : -(2 : Int) ^ 31 ≤ a.toInt / 2 ^ (b.toNat % 32) := by
    rw [Int.le_ediv_iff_mul_le hp]
    nlinarith
  have hhigh : a.toInt / 2 ^ (b.toNat % 32) < (2 : Int) ^ 31 := by
    rw [Int.ediv_lt_iff_lt_mul hp]
    nlinarith
  push_cast
  rw [Int.bmod_eq_of_le] <;> norm_num <;> norm_num at hlow hhigh <;> linarith

theorem alu_slt (a b : Word) : alu .slt a b = if a.toInt < b.toInt then 1#32 else 0#32 := by
  simp [alu, boolWord, Cmp.taken]

theorem alu_sltu (a b : Word) : alu .sltu a b = if a.toNat < b.toNat then 1#32 else 0#32 := by
  simp [alu, boolWord, Cmp.taken]

/-- The amount of a shift by an immediate survives the 12-bit immediate and its extension (R69, R174). -/
theorem shiftImm_amount (upper : BitVec 7) (shamt : BitVec 5) :
    (sext12 (shiftImm upper shamt)).toNat % 32 = shamt.toNat := by
  have h : (sext12 (shiftImm upper shamt)).setWidth 5 = shamt := by
    apply BitVec.eq_of_getLsbD_eq
    intro i hi
    simp only [sext12, BitVec.getLsbD_setWidth, hi, BitVec.getLsbD_signExtend]
    rw [if_pos (by omega)]
    change (true && (decide (i < 32) && (upper ++ shamt).getLsbD i)) = _
    rw [BitVec.getLsbD_append, if_pos hi]
    simp
    omega
  conv_rhs => rw [← h]
  simp

end Sys2Proof.Machine
end

