-- ==== Sys2Proof/Tests/Slice0.lean ====
section
/-! SUPPORT. The model's own tests. Every expected value is the spec's: a vector of spec/95_test_vectors.md, whose name stands in the test's comment, or the example of a rule. After them, one witness for each statement that has hypotheses. -/

namespace Sys2Proof.Tests

open Sys2Proof.Machine

/-! ## Helpers -/

/-- A running core at `pc` with `size` bytes of memory, some registers set and some words in memory. -/
def start (size : Nat) (pc : Word) (regs : List (RegIdx × Word)) (words : List (Nat × Word)) : State :=
  words.foldl (fun s w => s.setMem (s.mem.writeMasked w.1 w.2 0b1111#4))
    (regs.foldl (fun s r => s.writeReg r.1 r.2) ((launch size pc 0).getD State.reset))

/-- What a step must leave, checked on the next state. -/
def stepCheck (s : State) (p : State → Bool) : Bool :=
  match step s with
  | .next t => p t
  | .fault _ => false
  | .refused _ => false

/-- One tick of the word `w` from `s`: register `r`, `pc`, the outcome and the diagnostics afterwards. -/
def gives (s : State) (w : Nat) (r : RegIdx) (v pc : Word) (o : TickOutcome) (ds : List Diag) : Bool :=
  stepCheck (s.withFetchWord 32 w) fun t =>
    t.readReg r == v && t.pc == pc && t.lastOutcome == some o && t.diags == ds && t.ir == BitVec.ofNat 32 w

/-- One tick of the word `w` from `s`: the words at `0x10` and `0x14`, the outcome and the diagnostics afterwards. -/
def stores (s : State) (w : Nat) (lower upper : Word) (ds : List Diag) : Bool :=
  stepCheck (s.withFetchWord 32 w) fun t =>
    t.mem.word 0x10 == lower && t.mem.word 0x14 == upper && t.pc == 0x104#32 && t.lastOutcome == some .ok
      && t.diags == ds

/-- One tick of the word `w` from `s` ends Fatal with `opcode`: registers, memory and `pc` as before, `ir` the word. -/
def fatal (s : State) (w : Nat) (opcode : BitVec 7) : Bool :=
  stepCheck (s.withFetchWord 32 w) fun t =>
    t == { s.withFetchWord 32 w with
      ir := BitVec.ofNat 32 w, run := .halted, lastOutcome := some (.fatal opcode s.pc) }

/-- A checked step is a step. -/
theorem next_of_stepCheck {s : State} {p : State → Bool} (h : stepCheck s p = true) :
    ∃ t, step s = .next t ∧ p t = true := by
  unfold stepCheck at h
  split at h
  · exact ⟨_, by assumption, h⟩
  · cases h
  · cases h

def loadState : State := start 0x1000 0x100 [(10, 0x10)] [(0x10, 0x01FE7F80), (0x14, 0xA5A5A5A5)]
def storeState : State :=
  start 0x1000 0x100 [(6, 0x11223344), (10, 0x10)] [(0x10, 0xAABBCCDD), (0x14, 0x55667788)]
def blank : State := start 0x1000 0x100 [] []
def branchState : State := start 0x1000 0x100 [(5, 0xFFFFFFFF), (6, 1)] []
def aluState : State := start 0x1000 0x100 [(5, 0xFFFFFFF0), (6, 0x24), (7, 0x77777777)] []
def pair (x5 x6 : Word) : State := start 0x1000 0x100 [(5, x5), (6, x6), (7, 0x77777777)] []
def ebreakState : State := start 0x1000 0x100 [(5, 7)] [(0x100, 0x00100073)]
def fenceState : State := start 0x1000 0x100 [(5, 7)] [(0x100, 0x0FF0000F)]
def mulState : State := start 0x1000 0x100 [(5, 7)] [(0x100, 0x026283B3)]
def filled : State := (start 0x20 0 [] []).fill 0 8 0xAABBCCDD
def haltedState : State := { blank with run := .halted }

/-! ## Well-formedness: each check refuses an ill-formed term -/

theorem test_wf_odd_branch_offset : (Instr.beq 5 6 0x0001).wellFormed = false := by decide
theorem test_wf_odd_branch_offset_bgeu : (Instr.bgeu 5 6 0x1FFF).wellFormed = false := by decide
theorem test_wf_odd_jump_offset : (Instr.jal 1 0x00001).wellFormed = false := by decide
theorem test_wf_ignored_word_is_not_ebreak : (Instr.systemIgnored 1 0 0 0).wellFormed = false := by decide
theorem test_wf_accepts : (Instr.beq 5 6 0x1000).wellFormed = true ∧ (Instr.jal 1 0x100000).wellFormed = true ∧
    (Instr.systemIgnored 1 0 0 1).wellFormed = true := by decide

/-! ## Decoding: the spec's words (rules R108 to R182; tables of section 2 of file 95) -/

theorem test_decode_loads : decodeTableWord 32 0x00350283 = some (.lb 5 10 3) ∧
    decodeTableWord 32 0x00351283 = some (.lh 5 10 3) ∧ decodeTableWord 32 0xFFC52283 = some (.lw 5 10 0xFFC) ∧
    decodeTableWord 32 0x80054283 = some (.lbu 5 10 0x800) ∧ decodeTableWord 32 0x00255283 = some (.lhu 5 10 2) := by
  decide
theorem test_decode_stores : decodeTableWord 32 0xFE600FA3 = some (.sb 6 0 0xFFF) ∧
    decodeTableWord 32 0x7E651FA3 = some (.sh 6 10 0x7FF) ∧ decodeTableWord 32 0xFE652E23 = some (.sw 6 10 0xFFC) := by
  decide
theorem test_decode_upper : decodeTableWord 32 0xABCDE037 = some (.lui 0 0xABCDE) ∧
    decodeTableWord 32 0x12345017 = some (.auipc 0 0x12345) := by decide
theorem test_decode_jumps : decodeTableWord 32 0xFF9FF06F = some (.jal 0 0x1FFFF8) ∧
    decodeTableWord 32 0x005500E7 = some (.jalr 1 10 5) := by decide
theorem test_decode_branches : decodeTableWord 32 0x7E000FE3 = some (.beq 0 0 0xFFE) ∧
    decodeTableWord 32 0xFE629CE3 = some (.bne 5 6 0x1FF8) ∧ decodeTableWord 32 0x8062C063 = some (.blt 5 6 0x1000) ∧
    decodeTableWord 32 0x0062D463 = some (.bge 5 6 8) ∧ decodeTableWord 32 0x0062E463 = some (.bltu 5 6 8) ∧
    decodeTableWord 32 0x8062F063 = some (.bgeu 5 6 0x1000) := by decide
theorem test_decode_alu_reg : decodeTableWord 32 0x006283B3 = some (.add 7 5 6) ∧
    decodeTableWord 32 0x406283B3 = some (.sub 7 5 6) ∧ decodeTableWord 32 0x006293B3 = some (.sll 7 5 6) ∧
    decodeTableWord 32 0x0062A3B3 = some (.slt 7 5 6) ∧ decodeTableWord 32 0x0062B3B3 = some (.sltu 7 5 6) ∧
    decodeTableWord 32 0x0062C3B3 = some (.xor 7 5 6) ∧ decodeTableWord 32 0x0062D3B3 = some (.srl 7 5 6) ∧
    decodeTableWord 32 0x4062D3B3 = some (.sra 7 5 6) ∧ decodeTableWord 32 0x0062E3B3 = some (.or 7 5 6) ∧
    decodeTableWord 32 0x0062F3B3 = some (.and 7 5 6) := by decide
theorem test_decode_alu_imm : decodeTableWord 32 0xFFD28313 = some (.addi 6 5 0xFFD) ∧
    decodeTableWord 32 0xFFF2A393 = some (.slti 7 5 0xFFF) ∧ decodeTableWord 32 0x0012B393 = some (.sltiu 7 5 1) ∧
    decodeTableWord 32 0x5552C393 = some (.xori 7 5 0x555) ∧ decodeTableWord 32 0x00F2E393 = some (.ori 7 5 0x00F) ∧
    decodeTableWord 32 0x0FF2F393 = some (.andi 7 5 0x0FF) ∧ decodeTableWord 32 0x01F29393 = some (.slli 7 5 31) ∧
    decodeTableWord 32 0x0042D393 = some (.srli 7 5 4) ∧ decodeTableWord 32 0x41F2D393 = some (.srai 7 5 31) := by
  decide
theorem test_decode_system : decodeTableWord 32 0x00100073 = some .ebreak ∧
    decodeTableWord 32 0x00000073 = some (.systemIgnored 0 0 0 0) ∧
    decodeTableWord 32 0x001000F3 = some (.systemIgnored 1 0 0 1) ∧
    decodeTableWord 32 0xC0002573 = some (.systemIgnored 0xC00 0 2 10) := by decide
/-- One word of each line of R77's list, by the vectors L29, ST20, B26, J13, A31, A32, I36, I38. -/
theorem test_decode_reserved : decode 0x00053283#32 = .reservedSubop ∧ decode 0x00653023#32 = .reservedSubop ∧
    decode 0x0062A863#32 = .reservedSubop ∧ decode 0x000510E7#32 = .reservedSubop ∧
    decode 0x026283B3#32 = .reservedSubop ∧ decode 0x406293B3#32 = .reservedSubop ∧
    decode 0x02429393#32 = .reservedSubop ∧ decode 0x2042D393#32 = .reservedSubop := by decide
/-- Words of R78, by the vectors SY9 to SY16. -/
theorem test_decode_illegal : decode 0x00000000#32 = .illegalOpcode ∧ decode 0xFFFFFFFF#32 = .illegalOpcode ∧
    decode 0x0FF0000F#32 = .illegalOpcode ∧ decode 0x00000001#32 = .illegalOpcode ∧
    decode 0x1005252F#32 = .illegalOpcode ∧ decode 0x00052007#32 = .illegalOpcode := by decide
/-- DC5, and DC12 (only bit 7 set). -/
theorem test_fields : rdOf 0xDEADBEEF#32 = 0b11101 ∧ funct3Of 0xDEADBEEF#32 = 0b011 ∧ rs1Of 0xDEADBEEF#32 = 0b11011 ∧
    rs2Of 0xDEADBEEF#32 = 0b01010 ∧ funct7Of 0xDEADBEEF#32 = 0b1101111 ∧ immI 0xDEADBEEF#32 = 0xFFFFFDEA ∧
    immS 0xDEADBEEF#32 = 0xFFFFFDFD ∧ immB 0xDEADBEEF#32 = 0xFFFFFDFC ∧ immU 0xDEADBEEF#32 = 0xDEADB000 ∧
    immJ 0xDEADBEEF#32 = 0xFFFDB5EA ∧ immB 0x00000080#32 = 0x800 ∧ immS 0x00000080#32 = 1 := by decide
/-- S6: the extreme offsets. -/
theorem test_encode : encode (.beq 0 0 0x1000) = 0x80000063#32 ∧ encode (.beq 0 0 0x800) = 0x000000E3#32 ∧
    encode (.jal 0 0x0FFFFE) = 0x7FFFF06F#32 ∧ encode (.jal 0 0x800) = 0x0010006F#32 ∧
    encode (.sb 0 0 0x7FF) = 0x7E000FA3#32 := by decide

/-! ## Loads (L3, L26, L32, L10, L18, L25, L28, L14, L16) -/

theorem test_lb_sign : gives loadState 0x00250283 5 0xFFFFFFFE 0x104 .ok [] = true := by decide
theorem test_lb_outside : gives loadState 0xFFF00283 5 0 0x104 .ok [⟨.read, 0xFFFFFFFC⟩] = true := by decide
theorem test_lh_crossing :
    gives (start 0x1000 0x100 [(10, 0x14)] [(0x14, 0xA5A5A5A5)]) 0x00351283 5 0xA5 0x104 .ok [] = true := by decide
theorem test_lh_lane1 : gives loadState 0x00151283 5 0xFFFFFE7F 0x104 .ok [] = true := by decide
theorem test_lw_crossing : gives loadState 0x00152283 5 0x0001FE7F 0x104 .ok [] = true := by decide
theorem test_lw_outside :
    gives (start 0x1000 0x100 [(5, 9), (10, 0x810)] []) 0x7F052283 5 0 0x104 .ok [⟨.read, 0x1000⟩] = true := by decide
theorem test_lbu_far :
    gives (start 0x1000 0x100 [(10, 0x813)] [(0x10, 0x01FE7F80)]) 0x80054283 5 1 0x104 .ok [] = true := by decide
theorem test_lhu_lane1 : gives loadState 0x00155283 5 0xFE7F 0x104 .ok [] = true := by decide
theorem test_lhu_crossing : gives loadState 0x00355283 5 1 0x104 .ok [] = true := by decide

/-! ## Stores (ST2, ST17, ST6, ST8, ST10, ST16) -/

theorem test_sb_lane1 : stores storeState 0x006500A3 0xAABB44DD 0x55667788 [] = true := by decide
theorem test_sb_outside : stores storeState 0xFE600FA3 0xAABBCCDD 0x55667788 [⟨.write, 0xFFFFFFFC⟩] = true := by decide
theorem test_sh_lane1 : stores storeState 0x006510A3 0xAA3344DD 0x55667788 [] = true := by decide
theorem test_sh_crossing : stores storeState 0x006511A3 0x44BBCCDD 0x55667788 [] = true := by decide
theorem test_sw_crossing : stores storeState 0x006520A3 0x223344DD 0x55667788 [] = true := by decide
theorem test_sw_outside : stores (storeState.writeReg 10 0x810) 0x7E652823 0xAABBCCDD 0x55667788
    [⟨.write, 0x1000⟩] = true := by decide

/-! ## LUI, AUIPC, jumps (U5, U9, J4, J2, J5, J11) -/

theorem test_lui : gives blank 0x800002B7 5 0x80000000 0x104 .ok [] = true := by decide
theorem test_auipc_wraps :
    gives (start 0x2000 0x1000 [(5, 0x1234)] []) 0xFFFFF297 5 0 0x1004 .ok [] = true := by decide
theorem test_jal_back : gives blank 0x800000EF 1 0x104 0xFFF00100 .ok [] = true := by decide
theorem test_jal_x0 : gives blank 0xFF9FF06F 0 0 0xF8 .ok [] = true := by decide
theorem test_jalr_same_register :
    gives (start 0x1000 0x100 [(5, 0x200)] []) 0xFFC282E7 5 0x104 0x1FC .ok [] = true := by decide
theorem test_jalr_clears_bit0 : gives blank 0xFFF000E7 1 0x104 0xFFFFFFFE .ok [] = true := by decide

/-! ## Branches (B3, B1, B4, B22, B19, B23, B10, B25, B14, B24, B16, B17) -/

theorem test_beq_taken : gives branchState 0xFE528CE3 0 0 0xF8 .ok [] = true := by decide
theorem test_beq_not_taken : gives branchState 0x00628863 0 0 0x104 .ok [] = true := by decide
theorem test_bne_taken : gives branchState 0x00629863 0 0 0x110 .ok [] = true := by decide
theorem test_bne_unaligned_target : gives branchState 0x00629163 0 0 0x102 .ok [] = true := by decide
theorem test_blt_far : gives branchState 0x8062C063 0 0 0xFFFFF100 .ok [] = true := by decide
theorem test_blt_extremes : gives (pair 0x80000000 0x7FFFFFFF) 0x0062C863 0 0 0x110 .ok [] = true := by decide
theorem test_bge_not_taken : gives branchState 0x0062D863 0 0 0x104 .ok [] = true := by decide
theorem test_bge_equal : gives (pair 0x80000000 0x80000000) 0x0062D863 0 0 0x110 .ok [] = true := by decide
theorem test_bltu_taken : gives branchState 0x00536863 0 0 0x110 .ok [] = true := by decide
theorem test_bltu_extremes : gives (pair 0x80000000 0x7FFFFFFF) 0x0062E863 0 0 0x104 .ok [] = true := by decide
theorem test_bgeu_taken : gives branchState 0x0062F863 0 0 0x110 .ok [] = true := by decide
theorem test_bgeu_not_taken : gives branchState 0x00537863 0 0 0x104 .ok [] = true := by decide

/-! ## Register-register ALU (A11, A27, A14, A30, A16, A18, A23, A24, A26, A6, A29, A19, A20, A22, A9, A10) -/

theorem test_add_wraps : gives (pair 0x7FFFFFFF 1) 0x006283B3 7 0x80000000 0x104 .ok [] = true := by decide
theorem test_add_x0 : gives aluState 0x00628033 0 0 0x104 .ok [] = true := by decide
theorem test_sub_wraps : gives (pair 0x80000000 1) 0x406283B3 7 0x7FFFFFFF 0x104 .ok [] = true := by decide
theorem test_sub_same_register : gives aluState 0x40530333 6 0x34 0x104 .ok [] = true := by decide
theorem test_sll_by_32 : gives (pair 1 0x20) 0x006293B3 7 1 0x104 .ok [] = true := by decide
theorem test_sll_by_all_ones : gives (pair 1 0xFFFFFFFF) 0x006293B3 7 0x80000000 0x104 .ok [] = true := by decide
theorem test_slt_extremes : gives (pair 0x80000000 0x7FFFFFFF) 0x0062A3B3 7 1 0x104 .ok [] = true := by decide
theorem test_sltu_extremes : gives (pair 0x80000000 0x7FFFFFFF) 0x0062B3B3 7 0 0x104 .ok [] = true := by decide
theorem test_sltu_x0 : gives aluState 0x005033B3 7 1 0x104 .ok [] = true := by decide
theorem test_xor : gives aluState 0x0062C3B3 7 0xFFFFFFD4 0x104 .ok [] = true := by decide
theorem test_xor_self : gives aluState 0x0052C2B3 5 0 0x104 .ok [] = true := by decide
theorem test_srl : gives (pair 0x80000000 0x1F) 0x0062D3B3 7 1 0x104 .ok [] = true := by decide
theorem test_sra : gives (pair 0x80000000 0x1F) 0x4062D3B3 7 0xFFFFFFFF 0x104 .ok [] = true := by decide
theorem test_sra_by_32 : gives (pair 0x80000000 0x20) 0x4062D3B3 7 0x80000000 0x104 .ok [] = true := by decide
theorem test_or : gives aluState 0x0062E3B3 7 0xFFFFFFF4 0x104 .ok [] = true := by decide
theorem test_and : gives aluState 0x0062F3B3 7 0x20 0x104 .ok [] = true := by decide

/-! ## Register-immediate ALU (I2, I10, I12, I14, I19, I16, I21, I23, I25, I27, I30, I33, I34) -/

theorem test_addi : gives (pair 0xA 0) 0xFFD28313 6 7 0x104 .ok [] = true := by decide
theorem test_addi_bit30 : gives aluState 0x40028393 7 0x3F0 0x104 .ok [] = true := by decide
theorem test_slti_equal : gives aluState 0xFF02A393 7 0 0x104 .ok [] = true := by decide
theorem test_slti_low : gives (pair 0x80000000 0) 0x8002A393 7 1 0x104 .ok [] = true := by decide
theorem test_sltiu_sign_extends : gives (pair 0xFFFFF7FF 0) 0x8002B393 7 1 0x104 .ok [] = true := by decide
theorem test_sltiu : gives aluState 0x0012B393 7 0 0x104 .ok [] = true := by decide
theorem test_xori : gives aluState 0x5552C393 7 0xFFFFFAA5 0x104 .ok [] = true := by decide
theorem test_ori : gives aluState 0x80006393 7 0xFFFFF800 0x104 .ok [] = true := by decide
theorem test_andi : gives (pair 0x12345678 0) 0xFF02F393 7 0x12345670 0x104 .ok [] = true := by decide
theorem test_slli : gives aluState 0x01F29393 7 0 0x104 .ok [] = true := by decide
theorem test_srli : gives aluState 0x01F2D393 7 1 0x104 .ok [] = true := by decide
theorem test_srai_positive : gives (pair 0x7FFFFFF0 0) 0x4042D393 7 0x07FFFFFF 0x104 .ok [] = true := by decide
theorem test_srai_negative : gives aluState 0x41F2D393 7 0xFFFFFFFF 0x104 .ok [] = true := by decide

/-! ## System words, fatal words, the fetch (SY1, SY3, SY6, SY9, SY11, A31, I36, F2, F4, F5, F6, F7) -/

theorem test_ebreak : gives blank 0x00100073 0 0 0x100 .brk [] = true := by decide
theorem test_ignored_csr : gives (start 0x1000 0x100 [(10, 0x10)] []) 0xC0002573 10 0x10 0x104 .ok [] = true := by decide
theorem test_ignored_near_ebreak : gives blank 0x001000F3 1 0 0x104 .ok [] = true := by decide
theorem test_fatal_zero : fatal aluState 0x00000000 0b0000000 = true := by decide
theorem test_fatal_fence : fatal aluState 0x0FF0000F 0b0001111 = true := by decide
theorem test_fatal_mul : fatal aluState 0x026283B3 0b0110011 = true := by decide
theorem test_fatal_slli : fatal aluState 0x02429393 0b0010011 = true := by decide

/-- A tick from `s` whose fetch fails: `ir` 0, Fatal with opcode 0, one diagnostic. -/
def badFetch (s : State) : Bool :=
  stepCheck s fun t =>
    t == { s with ir := 0, run := .halted, lastOutcome := some (.fatal 0 s.pc), diags := ⟨.read, s.pc⟩ :: s.diags }

theorem test_fetch_unaligned : badFetch (start 0x1000 0x102 [] [(0x100, 0x13), (0x104, 0x13)]) = true := by decide
theorem test_fetch_past_end : badFetch (start 0x1000 0x1000 [] []) = true := by decide
theorem test_fetch_top : badFetch (start 0x1000 0xFFFFFFFC [] []) = true := by decide
theorem test_fetch_no_memory : badFetch (start 0 0 [] []) = true := by decide
theorem test_fetch_last_word : gives (start 0x1000 0xFFC [] []) 0x00000013 0 0 0x1000 .ok [] = true := by decide
/-- The step after reset runs the word placed at `pc` (the host asks the same of every row). -/
theorem test_first_step : gives State.reset 0x00A00293 5 10 4 .ok [] = true := by decide

/-! ## The Memory unit, reset (M3, M9, M10, M16, M14, M18, M20, M23, M27, M28; RS1) -/

/-- S9: which sizes a memory can have. -/
theorem test_construct : ([0, 4, 4096, 2 ^ 32].all fun n => (launch n 0 0).isSome) = true ∧
    ([1, 2, 3, 5, 4098, 4095, 2 ^ 32 + 4].all fun n => (launch n 0 0).isNone) = true := by decide
theorem test_read_unaligned : filled.memRead 0x12 = (0, filled.emit ⟨.read, 0x12⟩) := by decide
theorem test_write_lane2 : (filled.memWrite 0x10 0x11223344 0b0100).mem.word 0x10 = 0xAA22CCDD := by decide
theorem test_write_lanes13 : (filled.memWrite 0x10 0x11223344 0b1010).mem.word 0x10 = 0x11BB33DD := by decide
theorem test_write_outside : filled.memWrite 0x20 0x11223344 0b0001 = filled.emit ⟨.write, 0x20⟩ := by decide
theorem test_fill_dump : ((filled.fill 0x10 4 0xDEADBEEF).dump 0x0C 2).1 = some [0xAABBCCDD, 0xDEADBEEF] := by decide
theorem test_fill_past_end : filled.fill 0x10 5 0xDEADBEEF = filled.emit ⟨.fill, 0x10⟩ := by decide
theorem test_fill_nothing_outside : filled.fill 0x20 0 0xDEADBEEF = filled.emit ⟨.fill, 0x20⟩ := by decide
theorem test_dump_nothing : filled.dump 0 0 = (some [], filled) := by decide
theorem test_write_unlisted_value : (filled.fill 0 8 0).mem.cells = [] := by decide
theorem test_image : (loadImage [.word 0x00000293, .at 0x18, .blank, .word 0xDEADBEEF] (start 0x20 0 [] [])).mem.words 0 7
    = [0x00000293, 0, 0, 0, 0, 0, 0xDEADBEEF] := by decide
theorem test_reset_keeps_memory : (ebreakState.hostReset 0x102 0xABCD).mem = ebreakState.mem ∧
    (ebreakState.hostReset 0x102 0xABCD).readReg 5 = 0 ∧ (ebreakState.hostReset 0x102 0xABCD).pc = 0x102 := by decide

/-! ## Witnesses: the hypotheses of each statement can be met -/

open Sys2Proof.Claims

theorem test_witness_RegisterWriteThenRead : (31#5 ≠ 0#5) ∧ (0#5 ≠ 31#5) := by decide
theorem test_witness_MemRead : filled.mem.Valid 0x1C ∧ ¬ filled.mem.Valid 0x20 ∧ ¬ filled.mem.Valid 0x1D := by decide
theorem test_witness_MemWrite : filled.mem.Valid 0x0 ∧ ¬ filled.mem.Valid 0x22 ∧ ¬ filled.mem.Valid 0xFFFFFFFC := by decide
theorem test_witness_ByteLoad : 3 < 4 ∧ (0x1C#32).toNat % 4 = 0 ∧ (0x1C#32).toNat + 4 ≤ filled.mem.size := by decide
theorem test_witness_FillThenDump : filled.mem.ValidSpan 0x10 4 ∧ ¬ filled.mem.ValidSpan 0x10 5 ∧
    ¬ filled.mem.ValidSpan 0x20 0 ∧ filled.mem.ValidSpan 0x1C 0 := by decide
theorem test_witness_LoadedWords : (0x18#32).toNat % 4 = 0 ∧
    (0x18#32).toNat + 4 * [0xDEADBEEF#32, 0x13#32].length ≤ filled.mem.size := by decide
theorem test_witness_EncodeOfDecode : decode 0x8062C063#32 = .instr (.blt 5 6 0x1000) := by decide
theorem test_witness_LoadOutside : loadAddress (start 0x1000 0x100 [(10, 0x810)] []) (.lw 5 10 0x7F0) = some 0x1000 ∧
    destination (.lw 5 10 0x7F0) = some 5 ∧ ¬ Backed blank.mem 0x1000 := by decide
theorem test_witness_WordCrossingLoad :
    ((start 0x1000 0x100 [(10, 0x800)] []).effAddr 10 0x7FF).toNat % 4 = 3 ∧ Backed blank.mem 0xFFF := by decide
theorem test_witness_StoreOutside :
    storeAddress (start 0x1000 0x100 [(10, 0x810)] []) (.sb 6 10 0x7F0) = some 0x1000 ∧ ¬ Backed blank.mem 0x1000 := by
  decide
/-- ST18: the bytes of a word-crossing store at the very end of memory. -/
theorem test_witness_StoreRule : stepCheck ((start 0x1000 0x100 [(6, 0x11223344), (10, 0x7FF)] []).withFetchWord 32
    0x7E651FA3) (fun t => t.mem.word 0xFFC == 0x33440000 && t.diags == []) = true := by decide
theorem test_witness_even_offsets : (0x1000#13).toNat % 2 = 0 ∧ (0x0FFFFE#21).toNat % 2 = 0 := by decide
theorem test_witness_IgnoredSystemWord : (0x001000F3#32).toNat % 128 = 0b1110011 ∧ 0x001000F3#32 ≠ 0x00100073#32 := by
  decide
theorem test_witness_FatalWord_illegal : fenceState.run = .running ∧ decode (fetchedWord fenceState) = .illegalOpcode := by
  decide
theorem test_witness_FatalWord_reserved : mulState.run = .running ∧ decode (fetchedWord mulState) = .reservedSubop := by
  decide
theorem test_witness_FetchFromBadPc : ¬ (start 0x1000 0x102 [] []).mem.Valid 0x102 ∧
    ¬ (start 0x1000 0x1000 [] []).mem.Valid 0x1000 ∧ (start 0x1000 0x102 [] []).run = .running := by decide
theorem test_witness_StepRuns : ebreakState.run = .running ∧ ebreakState.mem.Valid ebreakState.pc ∧
    decode (ebreakState.mem.word ebreakState.pc.toNat) = .instr .ebreak := by decide
theorem test_witness_PlacedWord : (start 0x1000 0xFFC [] []).mem.Valid 0xFFC := by decide
theorem test_witness_HaltedCore : haltedState.run = .halted ∧
    hostMove (.reset 0 0) haltedState = .next (.nothing, haltedState.hostReset 0 0) ∧
    hostMove (.read 0x102) haltedState = .next (.word 0, haltedState.emit ⟨.read, 0x102⟩) := ⟨by decide, rfl, rfl⟩
/-- For TickHasOneOfThreeOutcomes, TickFrame and OnlyEbreakOrFatalWordHalts: a tick of each outcome. -/
theorem test_witness_step_ok : ∃ t, step (loadState.withFetchWord 32 0x00250283) = .next t ∧
    (decide (t.lastOutcome = some .ok) && decide (t.readReg 5 ≠ loadState.readReg 5)) = true :=
  next_of_stepCheck (by decide)
theorem test_witness_step_brk : ∃ t, step ebreakState = .next t ∧ decide (t.lastOutcome = some .brk) = true :=
  next_of_stepCheck (by decide)
theorem test_witness_step_fatal :
    ∃ t, step fenceState = .next t ∧ decide (t.lastOutcome = some (.fatal 0b0001111 0x100)) = true :=
  next_of_stepCheck (by decide)
theorem test_witness_step_store : ∃ t, step (storeState.withFetchWord 32 0x006500A3) = .next t ∧
    decide (t.mem.byte 0x11 ≠ storeState.mem.byte 0x11) = true := next_of_stepCheck (by decide)
/-- For TickDiagnostics: a data access outside memory; its other two cases are a bad fetch and every other tick. -/
theorem test_witness_step_data_diag : ∃ t, step (loadState.withFetchWord 32 0xFFF00283) = .next t ∧
    (decide (t.lastOutcome = some .ok) && decide (t.diags = [⟨.read, 0xFFFFFFFC⟩])) = true :=
  next_of_stepCheck (by decide)
theorem test_witness_step_bad_fetch :
    ∃ t, step (start 0x1000 0x102 [] []) = .next t ∧ decide (t.diags = [⟨.read, 0x102⟩]) = true :=
  next_of_stepCheck (by decide)
theorem test_witness_StepIgnoresOutputs :
    AgreeButOutputs ebreakState { ebreakState with ir := 0xABCD, diags := [⟨.fill, 3⟩], lastOutcome := some .ok } :=
  ⟨rfl, rfl, rfl, rfl⟩
/-- A store to the next word: the store `w` at `0x100`, with `x6 = 0x00100073`, `x10 = a` and `0xAABBCCDD` at `0x104`. -/
def selfStore (w a : Word) : State :=
  start 0x1000 0x100 [(6, 0x00100073), (10, a)] [(0x100, w), (0x104, 0xAABBCCDD)]
theorem test_witness_StoreIsSeen : decode (fetchedWord (selfStore 0x00652023 0x104)) = .instr (.sw 6 10 0) ∧
    ((selfStore 0x00652023 0x104).effAddr 10 0).toNat / 4 = (nextWord (selfStore 0x00652023 0x104)).toNat / 4 ∧
    (selfStore 0x00652023 0x104).mem.Valid (nextWord (selfStore 0x00652023 0x104)) := by decide
/-- The other two stores, and a lane that is not 0: `SB x6,0(x10)` to lane 3, `SH x6,0(x10)` to lane 1. -/
theorem test_witness_StoreIsSeen_narrow :
    decode (fetchedWord (selfStore 0x00650023 0x107)) = .instr (.sb 6 10 0) ∧
    ((selfStore 0x00650023 0x107).effAddr 10 0).toNat / 4 = (nextWord (selfStore 0x00650023 0x107)).toNat / 4 ∧
    decode (fetchedWord (selfStore 0x00651023 0x105)) = .instr (.sh 6 10 0) ∧
    ((selfStore 0x00651023 0x105).effAddr 10 0).toNat / 4 = (nextWord (selfStore 0x00651023 0x105)).toNat / 4 := by decide
theorem test_witness_StoreIsSeen_step : (stepCheck (selfStore 0x00652023 0x104) fun t => fetchedWord t == 0x00100073) = true ∧
    (stepCheck (selfStore 0x00650023 0x107) fun t => fetchedWord t == 0x73BBCCDD) = true ∧
    (stepCheck (selfStore 0x00651023 0x105) fun t => fetchedWord t == 0xAA0073DD) = true := by decide
theorem test_witness_Policies : decode (fetchedWord ebreakState) ≠ .reservedSubop ∧ mulState.run = .running ∧
    decode (fetchedWord mulState) = .reservedSubop := by decide
theorem test_witness_StepKeepsInv : storeState.Inv ∧ (storeState.withFetchWord 32 0x006500A3).Inv :=
  ⟨⟨by decide, by decide⟩, ⟨by decide, by decide⟩⟩
theorem test_witness_StepKeepsPcEven : ebreakState.PcEven ∧ (start 0x1000 0x102 [] []).PcEven := ⟨rfl, rfl⟩
theorem test_witness_HostMovesKeepInv : filled.Inv ∧
    hostMove (.fill 0x10 5 1) filled = .next (.nothing, filled.emit ⟨.fill, 0x10⟩) :=
  ⟨⟨by decide, by decide⟩, congrArg (fun t => Host.Outcome.next (HostAnswer.nothing, t)) (by decide)⟩
theorem test_witness_ends_normally : EndsNormally ebreakState (ebreakState.setIr 0x00100073).raiseBreak :=
  ⟨1, by decide, by decide⟩
theorem test_witness_ends_in_error : EndsInError fenceState (fenceState.setIr 0x0FF0000F).raiseFatal :=
  ⟨1, 0b0001111, 0x100, by decide, by decide⟩
/-- An error end at a bad fetch, where no word stands. -/
theorem test_witness_ends_in_error_bad_fetch :
    EndsInError (start 0x1000 0x102 [] []) ((start 0x1000 0x102 [] []).fetch.2).raiseFatal :=
  ⟨1, 0, 0x102, by decide, by decide⟩

end Sys2Proof.Tests
end

section
/-! The statements of 10_state.md: lemmas over the operations of the state and the decoder, then the five proofs. -/

namespace Sys2Proof

/-! ## The decoder spells well-formed instructions only -/

/-- The one word whose fields are those of EBREAK (R76). -/
theorem eq_ebreakWord_of_fields {w : Word} (hop : opcodeOf w = 0b1110011#7) (himm : iField w = 1#12)
    (hrs1 : rs1Of w = 0#5) (hf3 : funct3Of w = 0#3) (hrd : rdOf w = 0#5) : w = ebreakWord := by
  rw [← encI_fields w, hop, himm, hrs1, hf3, hrd]
  decide

theorem wellFormed_of_decodeSystem {w : Word} {i : Instr} (hop : opcodeOf w = 0b1110011#7)
    (h : decodeSystem w = .instr i) : i.wellFormed = true := by
  unfold decodeSystem at h
  split at h
  · cases h; rfl
  · rename_i hne
    cases h
    simp only [Instr.wellFormed, Bool.not_eq_true', Bool.and_eq_false_imp, Bool.and_eq_true, beq_iff_eq,
      beq_eq_false_iff_ne]
    exact fun ⟨⟨himm, hrs1⟩, hf3⟩ hrd => hne (eq_ebreakWord_of_fields hop himm hrs1 hf3 hrd)

/-- A branch offset comes out of the decoder even (R68). -/
theorem wellFormed_of_decodeBranch {w : Word} {i : Instr} (h : decodeBranch w = .instr i) :
    i.wellFormed = true := by
  unfold decodeBranch at h
  split at h <;> cases h <;> exact evenOffset_bField w

theorem wellFormed_of_decodeAluReg {w : Word} {i : Instr} (h : decodeAluReg w = .instr i) :
    i.wellFormed = true := by
  unfold decodeAluReg decodeAluRegBase decodeAluRegAlt at h
  split at h
  case h_3 => cases h
  all_goals split at h <;> cases h <;> rfl

theorem wellFormed_of_decodeAluImm {w : Word} {i : Instr} (h : decodeAluImm w = .instr i) :
    i.wellFormed = true := by
  unfold decodeAluImm decodeShiftLeftImm decodeShiftRightImm at h
  split at h
  case h_2 | h_6 => split at h <;> cases h <;> rfl
  all_goals cases h <;> rfl

theorem wellFormed_of_decodeLoad {w : Word} {i : Instr} (h : decodeLoad w = .instr i) :
    i.wellFormed = true := by
  unfold decodeLoad at h
  split at h <;> cases h <;> rfl

theorem wellFormed_of_decodeStore {w : Word} {i : Instr} (h : decodeStore w = .instr i) :
    i.wellFormed = true := by
  unfold decodeStore at h
  split at h <;> cases h <;> rfl

theorem wellFormed_of_decodeJalr {w : Word} {i : Instr} (h : decodeJalr w = .instr i) :
    i.wellFormed = true := by
  unfold decodeJalr at h
  split at h <;> cases h
  rfl

/-- Every instruction the decoder answers is one that some word spells. -/
theorem wellFormed_of_decode {w : Word} {i : Instr} (h : decode w = .instr i) : i.wellFormed = true := by
  unfold decode at h
  split at h
  case h_1 => exact wellFormed_of_decodeLoad h
  case h_2 => exact wellFormed_of_decodeStore h
  case h_3 | h_4 => cases h; rfl
  case h_5 => cases h; exact evenOffset_jField w
  case h_6 => exact wellFormed_of_decodeJalr h
  case h_7 => exact wellFormed_of_decodeBranch h
  case h_8 => exact wellFormed_of_decodeAluReg h
  case h_9 => exact wellFormed_of_decodeAluImm h
  case h_10 hop => exact wellFormed_of_decodeSystem hop h
  case h_11 => cases h

/-- Bit 0 of a sign-extended offset is its own (R68). -/
theorem signExtend_toNat_even {n : Nat} (hn : 0 < n) {offset : BitVec n} (h : evenOffset offset = true) :
    (offset.signExtend 32).toNat % 2 = 0 := by
  have hbit : (offset.signExtend 32).getLsbD 0 = false := by
    have hoffset : offset.getLsbD 0 = false := by simpa only [evenOffset, Bool.not_eq_true'] using h
    rw [BitVec.getLsbD_signExtend, if_pos hn, hoffset, Bool.and_false]
  simpa [BitVec.getLsbD, Nat.testBit_zero] using hbit

namespace Machine

/-- After reset every register reads 0 (R26). -/
@[simp] theorem reset_readReg (q : RegIdx) : State.reset.readReg q = 0#32 := by
  simp [State.readReg, State.reset, Config.nregs]

/-! ## Steps keep the invariant (R12, R31) -/

namespace State.Inv

variable {s : State} (h : s.Inv)
include h

/-- Whatever has the same registers and memory keeps the invariant. -/
theorem of_eq {t : State} (hx : t.x = s.x) (hm : t.mem = s.mem) : t.Inv :=
  ⟨(readReg_congr hx 0#5).trans h.1, hm ▸ h.2⟩

/-- The write port cannot reach `x0` (R12, R14). -/
theorem writeReg (r : RegIdx) (v : Word) : (s.writeReg r v).Inv := by
  refine ⟨?_, by simpa using h.2⟩
  rw [writeReg_readReg, if_neg fun ⟨h0, hr⟩ => hr h0.symm]
  exact h.1

theorem memRead (a : Word) : (s.memRead a).2.Inv := h.of_eq (memRead_x s a) (memRead_mem s a)

theorem memWrite (a v : Word) (mask : BitVec 4) : (s.memWrite a v mask).Inv :=
  ⟨(memWrite_readReg s a v mask 0#5).trans h.1, memWrite_wf h.2 a v mask⟩

theorem commit (nextPc : Word) : (s.commit nextPc).Inv := h.of_eq rfl rfl

theorem halt (o : TickOutcome) : (s.halt o).Inv := h.of_eq rfl rfl

theorem fetch : s.fetch.2.Inv := h.of_eq (fetch_x s) (fetch_mem s)

/-- Every instruction keeps the invariant, shape by shape. -/
theorem exec {i : Instr} {t : State} (ht : exec i s = .next t) : t.Inv := by
  cases shape_of_exec ht with
  | brk => exact h.halt _
  | go => exact h.commit _
  | write => exact (h.writeReg _ _).commit _
  | load => exact ((h.memRead _).writeReg _ _).commit _
  | store => exact (h.memWrite _ _ _).commit _

end State.Inv

/-! ## Steps keep `pc` even (R132, R142) -/

theorem clearBit0_even (t : Word) : (clearBit0 t).toNat % 2 = 0 := by
  rw [clearBit0_toNat]; omega

namespace State.PcEven

variable {s : State} (h : s.PcEven)
include h

/-- Displacing `pc` by an even word leaves an even address. -/
theorem pc_add {d : Word} (hd : d.toNat % 2 = 0) : (s.pc + d).toNat % 2 = 0 := by
  have hpc : s.pc.toNat % 2 = 0 := h
  rw [BitVec.toNat_add]
  omega

theorem fetch : s.fetch.2.PcEven := by
  rw [PcEven, fetch_pc]
  exact h

theorem pcPlus4 : s.pcPlus4.toNat % 2 = 0 := h.pc_add (by decide)

theorem branchTo (b : Bool) {offset : BitVec 13} (ho : evenOffset offset = true) : (s.branchTo b offset).PcEven := by
  unfold PcEven
  rw [branchTo_pc]
  split
  · exact h.pc_add (signExtend_toNat_even (by decide) ho)
  · exact h.pcPlus4

/-- A well-formed instruction leaves `pc` even. JAL and JALR clear bit 0 themselves. -/
theorem exec {i : Instr} {t : State} (hi : i.wellFormed = true) (ht : exec i s = .next t) : t.PcEven := by
  cases i with
  | ebreak => cases ht; exact h
  | beq | bne | blt | bge | bltu | bgeu => cases ht; exact h.branchTo _ hi
  | jal | jalr => cases ht; exact clearBit0_even _
  | lb | lh | lw | lbu | lhu | sb | sh | sw | lui | auipc | systemIgnored => cases ht; exact h.pcPlus4
  | add | sub | sll | slt | sltu | xor | srl | sra | or | and => cases ht; exact h.pcPlus4
  | addi | slti | sltiu | xori | ori | andi | slli | srli | srai => cases ht; exact h.pcPlus4

end State.PcEven

/-! ## What an instruction reads -/

/-- Two states that differ at most in the records of the outputs: the last outcome and the diagnostics. After the fetch
two states that agree on all a program can read are related so. -/
structure SameButRecords (s s' : State) : Prop where
  x : s.x = s'.x
  pc : s.pc = s'.pc
  ir : s.ir = s'.ir
  run : s.run = s'.run
  mem : s.mem = s'.mem

/-- Two next states of one tick that differ at most in the diagnostics. -/
structure SameButDiags (t t' : State) : Prop extends SameButRecords t t' where
  lastOutcome : t.lastOutcome = t'.lastOutcome

namespace SameButRecords

open State

variable {s s' : State} (h : SameButRecords s s')
include h

/-! ### The reads -/

theorem readReg (q : RegIdx) : s.readReg q = s'.readReg q := readReg_congr h.x q

theorem effAddr (rs1 : RegIdx) (imm : BitVec 12) : s.effAddr rs1 imm = s'.effAddr rs1 imm := by
  simp only [State.effAddr, h.readReg]

theorem pcPlus4 : s.pcPlus4 = s'.pcPlus4 := by simp only [State.pcPlus4, h.pc]

theorem memRead_fst (a : Word) : (s.memRead a).1 = (s'.memRead a).1 := by
  simp only [State.memRead, h.mem]; split <;> rfl

theorem loadBits_fst (addr : Word) (n : Width) : (s.loadBits addr n).1 = (s'.loadBits addr n).1 := by
  simp only [loadBits, h.memRead_fst]

/-! ### The updates -/

theorem writeReg (r : RegIdx) (v : Word) : SameButRecords (s.writeReg r v) (s'.writeReg r v) where
  x := x_ext fun q => by simp only [writeReg_readReg, h.readReg]
  pc := by simpa using h.pc
  ir := by simpa using h.ir
  run := by simpa using h.run
  mem := by simpa using h.mem

theorem memRead (a : Word) : SameButRecords (s.memRead a).2 (s'.memRead a).2 where
  x := by simpa using h.x
  pc := by simpa using h.pc
  ir := by simpa using h.ir
  run := by simpa using h.run
  mem := by simpa using h.mem

theorem memWrite (a v : Word) (mask : BitVec 4) : SameButRecords (s.memWrite a v mask) (s'.memWrite a v mask) where
  x := by simpa using h.x
  pc := by simpa using h.pc
  ir := by simpa using h.ir
  run := by simpa using h.run
  mem := by simp only [memWrite_mem, h.mem]

theorem commit (nextPc : Word) : SameButDiags (s.commit nextPc) (s'.commit nextPc) :=
  ⟨⟨h.x, rfl, h.ir, h.run, h.mem⟩, rfl⟩

theorem halt (o : TickOutcome) : SameButDiags (s.halt o) (s'.halt o) :=
  ⟨⟨h.x, h.pc, h.ir, rfl, h.mem⟩, rfl⟩

theorem raiseFatal : SameButDiags s.raiseFatal s'.raiseFatal := by
  simp only [State.raiseFatal, h.ir, h.pc]
  exact h.halt _

/-! ### The shapes the instructions share -/

theorem writeAndGo (rd : RegIdx) {v v' p p' : Word} (hv : v = v') (hp : p = p') :
    SameButDiags (s.writeAndGo rd v p) (s'.writeAndGo rd v' p') := by
  subst hv hp
  exact (h.writeReg rd v).commit p

theorem aluRegReg (op : AluOp) (rd rs1 rs2 : RegIdx) :
    SameButDiags (s.aluRegReg op rd rs1 rs2) (s'.aluRegReg op rd rs1 rs2) :=
  h.writeAndGo rd (by simp only [h.readReg]) h.pcPlus4

theorem aluRegImm (op : AluOp) (rd rs1 : RegIdx) (imm : BitVec 12) :
    SameButDiags (s.aluRegImm op rd rs1 imm) (s'.aluRegImm op rd rs1 imm) :=
  h.writeAndGo rd (by simp only [h.readReg]) h.pcPlus4

theorem branchTo (c : Cmp) (rs1 rs2 : RegIdx) (offset : BitVec 13) :
    SameButDiags (s.branchTo (c.taken (s.readReg rs1) (s.readReg rs2)) offset)
      (s'.branchTo (c.taken (s'.readReg rs1) (s'.readReg rs2)) offset) := by
  simp only [State.branchTo, h.readReg, h.pc, h.pcPlus4]
  exact h.commit _

theorem loadReg (n : Width) (extend : BitVec n.bits → Word) (rd rs1 : RegIdx) (imm : BitVec 12) :
    SameButDiags (s.loadReg n extend rd rs1 imm) (s'.loadReg n extend rd rs1 imm) := by
  simp only [State.loadReg, loadBits_state, h.loadBits_fst, h.effAddr, h.pcPlus4]
  exact ((h.memRead _).writeReg _ _).commit _

theorem storeReg (n : Width) (rs2 rs1 : RegIdx) (imm : BitVec 12) :
    SameButDiags (s.storeReg n rs2 rs1 imm) (s'.storeReg n rs2 rs1 imm) := by
  simp only [State.storeReg, storeBits, h.readReg, h.effAddr, h.pcPlus4]
  exact (h.memWrite _ _ _).commit _

/-- No instruction reads the records: from states that differ in them alone it leaves states that differ at most in the
diagnostics. -/
theorem exec {i : Instr} {t : State} (ht : exec i s = .next t) :
    ∃ t', exec i s' = .next t' ∧ SameButDiags t t' := by
  cases i with
  | lb | lh | lw | lbu | lhu => cases ht; exact ⟨_, rfl, h.loadReg _ _ _ _ _⟩
  | sb | sh | sw => cases ht; exact ⟨_, rfl, h.storeReg _ _ _ _⟩
  | lui rd => cases ht; exact ⟨_, rfl, h.writeAndGo rd rfl h.pcPlus4⟩
  | auipc rd => cases ht; exact ⟨_, rfl, h.writeAndGo rd (by rw [h.pc]) h.pcPlus4⟩
  | jal rd => cases ht; exact ⟨_, rfl, h.writeAndGo rd h.pcPlus4 (by rw [h.pc])⟩
  | jalr rd => cases ht; exact ⟨_, rfl, h.writeAndGo rd h.pcPlus4 (by rw [h.effAddr])⟩
  | beq | bne | blt | bge | bltu | bgeu => cases ht; exact ⟨_, rfl, h.branchTo _ _ _ _⟩
  | add | sub | sll | slt | sltu | xor | srl | sra | or | and => cases ht; exact ⟨_, rfl, h.aluRegReg _ _ _ _⟩
  | addi | slti | sltiu | xori | ori | andi | slli | srli | srai => cases ht; exact ⟨_, rfl, h.aluRegImm _ _ _ _⟩
  | ebreak => cases ht; exact ⟨_, rfl, h.halt _⟩
  | systemIgnored => cases ht; exact ⟨_, rfl, h.pcPlus4 ▸ h.commit _⟩

end SameButRecords

/-! ## The tick, forwards -/

theorem step_of_exec {s t : State} {i : Instr} (hr : s.run = .running) (hd : decode s.fetch.1 = .instr i)
    (ht : exec i s.fetch.2 = .next t) : step s = .next t := by
  simp only [step, tick, tickUnder, executeWord, hr, hd, ht]

theorem step_of_no_instr {s : State} (hr : s.run = .running)
    (hd : decode s.fetch.1 = .reservedSubop ∨ decode s.fetch.1 = .illegalOpcode) :
    step s = .next s.fetch.2.raiseFatal := by
  rcases hd with hd | hd <;>
    simp only [step, tick, tickUnder, executeWord, hr, hd, reservedSubop, Params.reservedSubopPolicy]

end Machine

namespace Claims

open Machine

namespace AgreeButOutputs

variable {s s' : State} (h : AgreeButOutputs s s')
include h

theorem fetch_fst : s.fetch.1 = s'.fetch.1 := by
  obtain ⟨-, hpc, -, hmem⟩ := h
  simp only [fetch_word, hpc, hmem]

/-- The fetch overwrites `ir`, so what it leaves differs in the records alone (R93). -/
theorem fetch_snd : SameButRecords s.fetch.2 s'.fetch.2 := by
  have hword := h.fetch_fst
  obtain ⟨hx, hpc, hrun, hmem⟩ := h
  exact ⟨by simpa using hx, by simpa using hpc, hword, by simpa using hrun, by simpa using hmem⟩

/-- From states that agree on all a program can read, a step leaves states that differ at most in the diagnostics. -/
theorem step {t : State} (ht : step s = .next t) : ∃ t', step s' = .next t' ∧ SameButDiags t t' := by
  have ⟨_, _, hruns, _⟩ := h
  obtain ⟨hrun, hcases⟩ := step_cases ht
  rw [hruns] at hrun
  rw [h.fetch_fst] at hcases
  obtain ⟨i, hd, hexec⟩ | ⟨hd, rfl⟩ := hcases
  · obtain ⟨t', ht', hsame⟩ := h.fetch_snd.exec hexec
    exact ⟨t', step_of_exec hrun hd ht', hsame⟩
  · exact ⟨_, step_of_no_instr hrun hd, h.fetch_snd.raiseFatal⟩

end AgreeButOutputs

/-! ## The obligations -/

/-- Settles O52: the fetch overwrites `ir`, and no instruction reads the other records. -/
theorem stepIgnoresOutputs : Obligations.StepIgnoresOutputs := by
  intro s s' t hagree ht
  obtain ⟨t', ht', hsame⟩ := hagree.step ht
  exact ⟨t', ht', ⟨hsame.x, hsame.pc, hsame.run, hsame.mem⟩, hsame.ir, hsame.lastOutcome⟩

/-- Settles O55, by the cases of a step and the shapes of an instruction's next state. -/
theorem stepKeepsInv : Obligations.StepKeepsInv := by
  intro s t hinv ht
  obtain ⟨-, ⟨i, -, hexec⟩ | ⟨-, rfl⟩⟩ := step_cases ht
  · exact hinv.fetch.exec hexec
  · exact hinv.fetch.halt _

/-- Settles O57: a decoded offset is even, a jump clears bit 0, and a halt leaves `pc` alone. -/
theorem stepKeepsPcEven : Obligations.StepKeepsPcEven := by
  intro s t heven ht
  obtain ⟨-, ⟨i, hd, hexec⟩ | ⟨-, rfl⟩⟩ := step_cases ht
  · exact heven.fetch.exec (wellFormed_of_decode hd) hexec
  · exact heven.fetch

/-- Settles O2: each field as `State.reset` gives it; no register and no byte of memory has been written. -/
theorem resetStateHasResetValues : Obligations.ResetStateHasResetValues :=
  ⟨reset_readReg, rfl, rfl, rfl, rfl, fun _ => rfl, rfl, rfl⟩

/-- Settles O4, from what every read sees after a write. -/
theorem registerWriteThenRead : Obligations.RegisterWriteThenRead := by
  refine ⟨fun s r v hr => ⟨?_, fun q hq => ?_⟩, State.writeReg_zero⟩
  · rw [State.writeReg_readReg, if_pos ⟨rfl, hr⟩]
  · rw [State.writeReg_readReg, if_neg fun ⟨hqr, _⟩ => hq hqr]

end Claims

end Sys2Proof
end

section
/-! The statements of 20_memory.md: a word's bytes as quotients, addresses inside memory, `fill` and `dump` case by
case, and what the next fetch sees after a store; then the six proofs. -/

namespace Sys2Proof

namespace Machine

/-! ## Bytes of a word as quotients -/

/-- Byte `i` of a word, as a number (R33). -/
theorem extract_byte_toNat (v : Word) (i : Nat) : (v.extractLsb' (8 * i) 8).toNat = v.toNat / 256 ^ i % 256 := by
  rw [extract_byte, BitVec.toNat_ofNat]

namespace Memory

variable {m : Memory}

/-- Digit `k` of a word of memory, base 256, is the byte at its address plus `k` (R33). -/
theorem word_digit (a : Nat) {k : Nat} (hk : k < 4) : (m.word a).toNat / 256 ^ k % 256 = (m.byte (a + k)).toNat := by
  rw [← extract_byte_toNat, extract_word m a k hk]

/-! ## Addresses inside memory -/

/-- An address inside memory does not wrap: no memory is larger than the address space (R32). -/
theorem toNat_add_ofNat {a : Word} {d : Nat} (h : a.toNat + d < m.size) :
    (a + BitVec.ofNat 32 d).toNat = a.toNat + d := by
  have hsize : m.size ≤ 2 ^ 32 := m.size_le
  rw [BitVec.toNat_add, BitVec.toNat_ofNat]
  omega

/-- The address of word `k` of a valid span, as a number. -/
theorem ValidSpan.toNat_word {a : Word} {n k : Nat} (h : m.ValidSpan a n) (hk : k < n) :
    (a + BitVec.ofNat 32 (4 * k)).toNat = a.toNat + 4 * k :=
  toNat_add_ofNat (m := m) (by have := h.2; omega)

/-- Every word of a valid span has a valid address (R34). -/
theorem ValidSpan.valid_word {a : Word} {n k : Nat} (h : m.ValidSpan a n) (hk : k < n) :
    m.Valid (a + BitVec.ofNat 32 (4 * k)) := by
  have hword := h.toNat_word hk
  obtain ⟨⟨halign, -⟩, hspan⟩ := h
  unfold Valid
  rw [hword]
  omega

/-- The filled words are the value, word for word (R41, R42). -/
theorem words_fillWords (a : Nat) (v : Word) (n : Nat) : (m.fillWords a v n).words a n = List.replicate n v := by
  rw [words, List.eq_replicate_iff]
  refine ⟨by simp, fun w hw => ?_⟩
  obtain ⟨k, hk, rfl⟩ := List.mem_map.mp hw
  exact word_fillWords m a v (List.mem_range.mp hk)

end Memory

namespace State

variable {s : State}

/-! ## `fill` and `dump` (R41, R42) -/

theorem fill_valid {a : Word} {n : Nat} (h : s.mem.ValidSpan a n) (v : Word) :
    s.fill a n v = s.setMem (s.mem.fillWords a.toNat v n) := if_pos h

theorem fill_invalid {a : Word} {n : Nat} (h : ¬ s.mem.ValidSpan a n) (v : Word) :
    s.fill a n v = s.emit ⟨.fill, a⟩ := if_neg h

theorem dump_valid {a : Word} {n : Nat} (h : s.mem.ValidSpan a n) :
    s.dump a n = (some (s.mem.words a.toNat n), s) := if_pos h

theorem dump_invalid {a : Word} {n : Nat} (h : ¬ s.mem.ValidSpan a n) :
    s.dump a n = (none, s.emit ⟨.dump, a⟩) := if_neg h

/-- On a valid span the words of memory are what `mem_read` gives at them, in order (R42). -/
theorem words_eq_memRead {a : Word} {n : Nat} (h : s.mem.ValidSpan a n) :
    s.mem.words a.toNat n = (List.range n).map fun k => (s.memRead (a + BitVec.ofNat 32 (4 * k))).1 := by
  refine List.map_congr_left fun k hk => ?_
  have hk := List.mem_range.mp hk
  rw [memRead_valid (h.valid_word hk), h.toNat_word hk]

/-! ## A load of one byte -/

/-- A byte load from a backed word gives the byte at its address (R106). -/
theorem loadBits_byte_of_backed {addr : Word} (h : addr.toNat - addr.toNat % 4 + 4 ≤ s.mem.size) :
    (s.loadBits addr .byte).1.toNat = (s.mem.byte addr.toNat).toNat := by
  have hbyte := s.loadBits_byte addr .byte 0 (by decide)
  rw [if_pos ⟨h, by omega⟩] at hbyte
  exact congrArg BitVec.toNat (BitVec.extractLsb'_eq_self.symm.trans hbyte)

end State

/-! ## Launching (R32, R213) -/

theorem launch_of_construct {size : Nat} {m : Memory} (hm : Memory.construct size = some m) (entryPc irAfter : Word) :
    launch size entryPc irAfter = some (({ State.reset with mem := m }).hostReset entryPc irAfter) := by
  rw [launch, hm, Option.map_some]

/-- A reset leaves a canonical memory canonical, and `x0` at 0 whatever it was (R26). -/
theorem hostReset_inv {s : State} (h : s.mem.wf = true) (entryPc irAfter : Word) : (s.hostReset entryPc irAfter).Inv :=
  ⟨State.hostReset_readReg s entryPc irAfter 0#5, h⟩

/-! ## A store, as the next fetch sees it -/

/-- Each store is `storeReg` at the width of its bytes (R118 to R120). -/
theorem exec_of_store {i : Instr} {rs2 rs1 : RegIdx} {imm : BitVec 12} {n : Nat}
    (hi : (i = .sb rs2 rs1 imm ∧ n = 1) ∨ (i = .sh rs2 rs1 imm ∧ n = 2) ∨ (i = .sw rs2 rs1 imm ∧ n = 4)) :
    ∃ w : Width, n = w.bytes ∧ ∀ s, exec i s = .next (s.storeReg w rs2 rs1 imm) := by
  obtain ⟨rfl, rfl⟩ | ⟨rfl, rfl⟩ | ⟨rfl, rfl⟩ := hi
  · exact ⟨.byte, rfl, fun _ => rfl⟩
  · exact ⟨.half, rfl, fun _ => rfl⟩
  · exact ⟨.word, rfl, fun _ => rfl⟩

end Machine

namespace Claims

open Machine

/-- A step whose fetched word is an instruction executes it on what the fetch left (R92). -/
theorem exec_of_step {s t : State} {i : Instr} (ht : step s = .next t) (hi : decode (fetchedWord s) = .instr i) :
    exec i s.fetch.2 = .next t := by
  rw [fetchedWord, ← fetch_word] at hi
  obtain ⟨-, ⟨j, hj, hexec⟩ | ⟨hnone, -⟩⟩ := step_cases ht
  · rw [hi] at hj
    cases hj
    exact hexec
  · simp [hi] at hnone

theorem fetch_pcPlus4 (s : State) : s.fetch.2.pcPlus4 = nextWord s := by
  rw [State.pcPlus4_ofNat, fetch_pc, nextWord]

theorem fetch_effAddr (s : State) (rs1 : RegIdx) (imm : BitVec 12) :
    s.fetch.2.effAddr rs1 imm = s.effAddr rs1 imm := by
  rw [State.effAddr, fetch_readReg, State.effAddr]

/-- Digit `k` of the word the next fetch returns from a valid `pc` is the byte at `pc + k` (R93). -/
theorem fetchedWord_digit {s : State} (h : s.mem.Valid s.pc) {k : Nat} (hk : k < 4) :
    (fetchedWord s).toNat / 256 ^ k % 256 = (s.mem.byte (s.pc.toNat + k)).toNat := by
  rw [fetchedWord, if_pos h, Memory.word_digit _ hk]

/-- What a store leaves in a byte of the word it writes to, when that word is backed (R116, R117). -/
theorem storeReg_byte_toNat (s : State) (w : Width) (rs2 rs1 : RegIdx) (imm : BitVec 12) {b : Nat}
    (hword : (s.effAddr rs1 imm).toNat / 4 = b / 4) (hbacked : b - b % 4 + 4 ≤ s.mem.size) :
    ((s.storeReg w rs2 rs1 imm).mem.byte b).toNat =
      if (s.effAddr rs1 imm).toNat ≤ b ∧ b < (s.effAddr rs1 imm).toNat + w.bytes
      then (s.readReg rs2).toNat / 256 ^ (b - (s.effAddr rs1 imm).toNat) % 256
      else (s.mem.byte b).toNat := by
  have hbyte := s.storeBits_byte (s.effAddr rs1 imm) w (s.readReg rs2) b
  rw [State.storeReg, State.commit_mem, hbyte, ← extract_byte_toNat, ← apply_ite BitVec.toNat]
  congr 1
  exact if_congr (by omega) rfl rfl

/-! ## The obligations -/

/-- Settles O6, by the masked write byte by byte. -/
theorem memWriteFollowsContract : Obligations.MemWriteFollowsContract := by
  intro s a v mask
  refine ⟨s.memWrite_readReg a v mask, s.memWrite_pc a v mask, s.memWrite_ir a v mask, s.memWrite_run a v mask,
    s.memWrite_lastOutcome a v mask, fun hvalid => ?_, fun hinvalid => ?_⟩
  · refine ⟨by rw [State.memWrite_diags, if_pos hvalid], s.memWrite_size a v mask, fun i hi => ?_, fun b hb => ?_⟩
    · rw [State.memWrite_byte, Nat.add_sub_cancel_left, extract_byte]
      refine if_congr ?_ rfl rfl
      rw [mask_bit]
      exact ⟨fun ⟨_, _, _, hmask⟩ => hmask, fun hmask => ⟨hvalid, by omega, by omega, hmask⟩⟩
    · rw [State.memWrite_byte, if_neg (by omega)]
  · rw [State.memWrite_mem, State.memWrite_diags, if_neg hinvalid, if_neg hinvalid]
    exact ⟨rfl, rfl⟩

/-- Settles O7: the byte load reads the byte at its address, and the full write put byte `k` of the word there. -/
theorem byteLoadSeesLaneOfStoredWord : Obligations.ByteLoadSeesLaneOfStoredWord := by
  intro s a v k hk halign hbound
  have haddr : (a + BitVec.ofNat 32 k).toNat = a.toNat + k := Memory.toNat_add_ofNat (m := s.mem) (by omega)
  have hmem : (s.memWrite a v 0b1111#4).mem = s.mem.writeMasked a.toNat v 0b1111#4 := by
    rw [State.memWrite_mem, if_pos ⟨halign, hbound⟩]
  rw [State.loadBits_byte_of_backed (by rw [haddr, State.memWrite_size]; omega), haddr, hmem,
    ← Memory.word_digit _ hk, Memory.word_writeMasked_same]

/-- Settles O8: on a valid span from the laws of the fill loop, on any other from the one diagnostic. -/
theorem fillThenDump : Obligations.FillThenDump := by
  intro s a v n
  rw [← and_assoc]
  refine ⟨fun hspan => ?_, fun hspan => ?_⟩
  · have hfill := State.fill_valid hspan v
    have hspan' : (s.fill a n v).mem.ValidSpan a n := by
      rw [hfill, State.setMem_mem, Memory.ValidSpan, Memory.Valid, Memory.size_fillWords]
      exact hspan
    refine ⟨?_, by rw [hfill, State.setMem_diags], fun b hb => ?_, by rw [State.dump_valid hspan], ?_⟩
    · rw [State.dump_valid hspan', hfill, State.setMem_mem, Memory.words_fillWords]
    · rw [hfill, State.setMem_mem, Memory.byte_fillWords_outside _ _ _ _ _ hb]
    · rw [State.dump_valid hspan, State.words_eq_memRead hspan]
  · exact ⟨State.fill_invalid hspan v, State.dump_invalid hspan⟩

/-- Settles O53: the step commits at `pc + 4`, and the next fetch reads the bytes the store left there. -/
theorem storeIsSeenByNextFetch : Obligations.StoreIsSeenByNextFetch := by
  intro s t i rs2 rs1 imm n hi hstep hdecode hword hvalid
  obtain ⟨w, rfl, hexec⟩ := exec_of_store hi
  have ht : s.fetch.2.storeReg w rs2 rs1 imm = t := by
    have := exec_of_step hstep hdecode
    rwa [hexec, Host.Outcome.next.injEq] at this
  subst ht
  have hpc : (s.fetch.2.storeReg w rs2 rs1 imm).pc = nextWord s := fetch_pcPlus4 s
  have hvalid' : (s.fetch.2.storeReg w rs2 rs1 imm).mem.Valid (nextWord s) := by
    rw [Memory.Valid, State.storeReg_size, fetch_mem]
    exact hvalid
  refine ⟨hpc, fun k hk => ?_⟩
  obtain ⟨halign, hbound⟩ := hvalid
  have hbyte := storeReg_byte_toNat s.fetch.2 w rs2 rs1 imm (b := (nextWord s).toNat + k)
    (by rw [fetch_effAddr]; omega) (by rw [fetch_mem]; omega)
  rw [fetch_effAddr, fetch_readReg, fetch_mem] at hbyte
  rw [fetchedWord_digit (hpc ▸ hvalid') hk, hpc, hbyte]

/-- Settles O3: `launch` resets a memory that `Memory.construct` gives for the legal sizes alone. -/
theorem resetStateMeetsInvariants : Obligations.ResetStateMeetsInvariants := by
  refine ⟨⟨reset_readReg 0#5, reset_mem_wf⟩, rfl, rfl, rfl,
    fun size entryPc irAfter => ⟨fun hlegal => ?_, fun hillegal => ?_⟩⟩
  · obtain ⟨m, hm, hsize, -, hwf⟩ := Memory.construct_legal hlegal
    exact ⟨_, launch_of_construct hm entryPc irAfter, hsize, rfl, rfl, hostReset_inv hwf entryPc irAfter, rfl, id⟩
  · rw [launch, Memory.construct_illegal hillegal, Option.map_none]

/-- Settles O5, from the two cases of a read. -/
theorem memReadFollowsContract : Obligations.MemReadFollowsContract := by
  intro s a
  refine ⟨fun hvalid => ?_, fun hinvalid => ?_⟩
  · rw [State.memRead_valid hvalid]
    exact ⟨rfl, s.mem.word_toNat a.toNat⟩
  · rw [State.memRead_invalid hinvalid]
    exact ⟨rfl, rfl⟩

end Claims

end Sys2Proof
end

section
/-! The statements of 30_encoding.md: the decoder on each layout of the encoder and back, its two classes of words that
are no instruction, and the fields as numbers; then the six proofs. -/

namespace Sys2Proof

/-! ## A word is the layout of its own fields, at the values they are known to have -/

section Layouts

variable {w : Word} {funct7 : BitVec 7} {funct3 : BitVec 3} {opcode : BitVec 7}

theorem encR_of_fields (hop : opcodeOf w = opcode) (hf7 : funct7Of w = funct7) (hf3 : funct3Of w = funct3) :
    encR funct7 (rs2Of w) (rs1Of w) funct3 (rdOf w) opcode = w := by
  rw [← hop, ← hf7, ← hf3, encR_fields]

theorem encI_of_fields (hop : opcodeOf w = opcode) (hf3 : funct3Of w = funct3) :
    encI (iField w) (rs1Of w) funct3 (rdOf w) opcode = w := by
  rw [← hop, ← hf3, encI_fields]

theorem encS_of_fields (hop : opcodeOf w = opcode) (hf3 : funct3Of w = funct3) :
    encS (sField w) (rs2Of w) (rs1Of w) funct3 opcode = w := by
  rw [← hop, ← hf3, encS_fields]

theorem encB_of_fields (hop : opcodeOf w = opcode) (hf3 : funct3Of w = funct3) :
    encB (bField w) (rs2Of w) (rs1Of w) funct3 opcode = w := by
  rw [← hop, ← hf3, encB_fields]

theorem encU_of_fields (hop : opcodeOf w = opcode) : encU (uField w) (rdOf w) opcode = w := by
  rw [← hop, encU_fields]

theorem encJ_of_fields (hop : opcodeOf w = opcode) : encJ (jField w) (rdOf w) opcode = w := by
  rw [← hop, encJ_fields]

end Layouts

/-! ## Encoding a decoded instruction, group by group (R71 to R76) -/

section EncodeOfDecode

variable {w : Word} {i : Instr}

theorem encode_of_decodeLoad (hop : opcodeOf w = 0b0000011#7) (h : decodeLoad w = .instr i) : encode i = w := by
  unfold decodeLoad at h
  split at h <;> cases h <;> exact encI_of_fields hop ‹_›

theorem encode_of_decodeStore (hop : opcodeOf w = 0b0100011#7) (h : decodeStore w = .instr i) : encode i = w := by
  unfold decodeStore at h
  split at h <;> cases h <;> exact encS_of_fields hop ‹_›

theorem encode_of_decodeJalr (hop : opcodeOf w = 0b1100111#7) (h : decodeJalr w = .instr i) : encode i = w := by
  unfold decodeJalr at h
  split at h <;> cases h
  exact encI_of_fields hop ‹_›

theorem encode_of_decodeBranch (hop : opcodeOf w = 0b1100011#7) (h : decodeBranch w = .instr i) : encode i = w := by
  unfold decodeBranch at h
  split at h <;> cases h <;> exact encB_of_fields hop ‹_›

theorem encode_of_decodeAluReg (hop : opcodeOf w = 0b0110011#7) (h : decodeAluReg w = .instr i) : encode i = w := by
  unfold decodeAluReg decodeAluRegBase decodeAluRegAlt at h
  split at h
  case h_3 => cases h
  all_goals
    rename_i hf7
    split at h <;> cases h <;> exact encR_of_fields hop hf7 ‹_›

theorem encode_of_decodeAluImm (hop : opcodeOf w = 0b0010011#7) (h : decodeAluImm w = .instr i) : encode i = w := by
  unfold decodeAluImm decodeShiftLeftImm decodeShiftRightImm at h
  split at h
  case h_2 hf3 | h_6 hf3 => split at h <;> cases h <;> exact encR_of_fields hop ‹_› hf3
  all_goals cases h <;> exact encI_of_fields hop ‹_›

theorem encode_of_decodeSystem (hop : opcodeOf w = 0b1110011#7) (h : decodeSystem w = .instr i) : encode i = w := by
  unfold decodeSystem at h
  split at h
  · rename_i hw
    cases h
    rw [hw]
    decide
  · cases h
    exact encI_of_fields hop rfl

/-- No bit of a word that spells an instruction is dropped. -/
theorem encode_of_decode (h : decode w = .instr i) : encode i = w := by
  unfold decode at h
  split at h
  case h_1 hop => exact encode_of_decodeLoad hop h
  case h_2 hop => exact encode_of_decodeStore hop h
  case h_3 hop | h_4 hop => cases h; exact encU_of_fields hop
  case h_5 hop => cases h; exact encJ_of_fields hop
  case h_6 hop => exact encode_of_decodeJalr hop h
  case h_7 hop => exact encode_of_decodeBranch hop h
  case h_8 hop => exact encode_of_decodeAluReg hop h
  case h_9 hop => exact encode_of_decodeAluImm hop h
  case h_10 hop => exact encode_of_decodeSystem hop h
  case h_11 => cases h

end EncodeOfDecode

/-! ## Decoding an encoded instruction -/

theorem bField_encB_of_even {offset : BitVec 13} (h : evenOffset offset = true) (rs2 rs1 : BitVec 5)
    (funct3 : BitVec 3) (opcode : BitVec 7) : bField (encB offset rs2 rs1 funct3 opcode) = offset :=
  bField_encB ((Bool.not_eq_true' _).mp h) rs2 rs1 funct3 opcode

theorem jField_encJ_of_even {offset : BitVec 21} (h : evenOffset offset = true) (rd : BitVec 5)
    (opcode : BitVec 7) : jField (encJ offset rd opcode) = offset :=
  jField_encJ ((Bool.not_eq_true' _).mp h) rd opcode

/-- A SYSTEM word that is not EBREAK's reads back as an ignored word with its own fields (R76, R182). -/
theorem decode_encode_systemIgnored {imm : BitVec 12} {rs1 : RegIdx} {funct3 : BitVec 3} {rd : RegIdx}
    (h : (Instr.systemIgnored imm rs1 funct3 rd).wellFormed = true) :
    decode (encode (.systemIgnored imm rs1 funct3 rd)) = .instr (.systemIgnored imm rs1 funct3 rd) := by
  have hne : encI imm rs1 funct3 rd 0b1110011#7 ≠ ebreakWord := by
    intro heq
    have himm := congrArg iField heq
    have hrs1 := congrArg rs1Of heq
    have hf3 := congrArg funct3Of heq
    have hrd := congrArg rdOf heq
    simp only [iField_encI, rs1Of_encI, funct3Of_encI, rdOf_encI] at himm hrs1 hf3 hrd
    subst himm hrs1 hf3 hrd
    exact absurd h (by decide)
  simp [encode, decode, decodeSystem, hne]

/-- The decoder finds the row a well-formed instruction was encoded from, and reads each operand back. -/
theorem decode_encode {i : Instr} (h : i.wellFormed = true) : decode (encode i) = .instr i := by
  cases i with
  | lb | lh | lw | lbu | lhu => simp [encode, decode, decodeLoad]
  | sb | sh | sw => simp [encode, decode, decodeStore]
  | lui | auipc => simp [encode, decode]
  | jal => simp [encode, decode, jField_encJ_of_even h]
  | jalr => simp [encode, decode, decodeJalr]
  | beq | bne | blt | bge | bltu | bgeu => simp [encode, decode, decodeBranch, bField_encB_of_even h]
  | add | sll | slt | sltu | xor | srl | or | and => simp [encode, decode, decodeAluReg, decodeAluRegBase]
  | sub | sra => simp [encode, decode, decodeAluReg, decodeAluRegAlt]
  | addi | slti | sltiu | xori | ori | andi => simp [encode, decode, decodeAluImm]
  | slli => simp [encode, decode, decodeAluImm, decodeShiftLeftImm]
  | srli | srai => simp [encode, decode, decodeAluImm, decodeShiftRightImm]
  | ebreak => decide
  | systemIgnored => exact decode_encode_systemIgnored h

/-! ## The fields as numbers (R61, R63 to R69) -/

/-- A field, as a quotient and a remainder. -/
theorem toNat_field (w : Word) (start len : Nat) :
    (w.extractLsb' start len).toNat = w.toNat / 2 ^ start % 2 ^ len := by
  rw [BitVec.extractLsb'_toNat, Nat.shiftRight_eq_div_pow]

/-- A field that holds the sign bit, as an integer: inst[31] counts negatively (R68). -/
theorem toInt_signField (w : Word) {start len : Nat} (hlen : 0 < len) (htop : start + len = 32) :
    (w.extractLsb' start len).toInt =
      ((w.toNat / 2 ^ start : Nat) : Int) - ((2 ^ len * (w.toNat / 2 ^ 31) : Nat) : Int) := by
  obtain ⟨k, rfl⟩ : ∃ k, len = k + 1 := ⟨len - 1, by omega⟩
  have hpow : 2 ^ start * 2 ^ k = 2 ^ 31 := by rw [← Nat.pow_add]; congr 1; omega
  have hlt : w.toNat / 2 ^ start < 2 ^ k * 2 := by
    apply Nat.div_lt_of_lt_mul
    rw [← Nat.mul_assoc, hpow]
    exact w.isLt
  have htoNat : (w.extractLsb' start (k + 1)).toNat = w.toNat / 2 ^ start := by
    rw [toNat_field, Nat.pow_succ, Nat.mod_eq_of_lt hlt]
  rw [BitVec.toInt_eq_toNat_cond, htoNat, ← hpow, ← Nat.div_div_eq_div_mul, Nat.pow_succ]
  generalize w.toNat / 2 ^ start = n at hlt
  split
  case isTrue hsmall => rw [Nat.div_eq_of_lt (by omega), Nat.mul_zero, Int.natCast_zero, Int.sub_zero]
  case isFalse hbig => rw [Nat.div_eq_of_lt_le (k := 1) (by omega) (by omega), Nat.mul_one]

/-- Bits put below a field that holds the sign bit count up from its value. -/
theorem toInt_append_of_ne_zero {n m : Nat} (hn : n ≠ 0) (x : BitVec n) (y : BitVec m) :
    (x ++ y).toInt = 2 ^ m * x.toInt + y.toNat := by
  rw [BitVec.toInt_append, if_neg (by simpa using hn)]

theorem immI_toInt (w : Word) :
    (immI w).toInt = ((w.toNat / 2 ^ 20 : Nat) : Int) - ((4096 * (w.toNat / 2 ^ 31) : Nat) : Int) := by
  rw [immI, sext12, BitVec.toInt_signExtend_of_le (by decide), iField, toInt_signField w (by decide) (by decide)]
  rfl

theorem immS_toInt (w : Word) : (immS w).toInt =
    ((32 * (w.toNat / 2 ^ 25) + w.toNat / 2 ^ 7 % 32 : Nat) : Int) - ((4096 * (w.toNat / 2 ^ 31) : Nat) : Int) := by
  rw [immS, sext12, BitVec.toInt_signExtend_of_le (by decide), sField]
  simp (disch := decide) only [toInt_append_of_ne_zero, toInt_signField, toNat_field]
  omega

theorem immB_toInt (w : Word) : (immB w).toInt =
    ((2048 * (w.toNat / 2 ^ 7 % 2) + 32 * (w.toNat / 2 ^ 25 % 64) + 2 * (w.toNat / 2 ^ 8 % 16) : Nat) : Int)
      - ((4096 * (w.toNat / 2 ^ 31) : Nat) : Int) := by
  rw [immB, sext13, BitVec.toInt_signExtend_of_le (by decide), bField]
  simp (disch := decide) only [toInt_append_of_ne_zero, toInt_signField, toNat_field, BitVec.toNat_ofNat]
  omega

theorem immJ_toInt (w : Word) : (immJ w).toInt =
    ((4096 * (w.toNat / 2 ^ 12 % 256) + 2048 * (w.toNat / 2 ^ 20 % 2) + 2 * (w.toNat / 2 ^ 21 % 1024) : Nat) : Int)
      - ((1048576 * (w.toNat / 2 ^ 31) : Nat) : Int) := by
  rw [immJ, sext21, BitVec.toInt_signExtend_of_le (by decide), jField]
  simp (disch := decide) only [toInt_append_of_ne_zero, toInt_signField, toNat_field, BitVec.toNat_ofNat]
  omega

theorem immU_toNat (w : Word) : (immU w).toNat = 4096 * (w.toNat / 2 ^ 12) := by
  rw [immU, upper20, BitVec.toNat_append, BitVec.toNat_ofNat, Nat.zero_mod, Nat.or_zero, Nat.shiftLeft_eq, uField,
    toNat_field]
  omega

theorem opcodeOf_toNat (w : Word) : (opcodeOf w).toNat = w.toNat % 128 := by
  rw [opcodeOf, toNat_field, Nat.pow_zero, Nat.div_one]
  rfl

theorem funct3Of_toNat (w : Word) : (funct3Of w).toNat = w.toNat / 2 ^ 12 % 8 := toNat_field w 12 3

theorem funct7Of_toNat (w : Word) : (funct7Of w).toNat = w.toNat / 2 ^ 25 := by
  rw [funct7Of, toNat_field]
  omega

/-! ## No group answers the illegal-opcode class (R78) -/

section NeverIllegal

variable (w : Word)

theorem decodeLoad_ne_illegal : decodeLoad w ≠ .illegalOpcode := by
  unfold decodeLoad; split <;> simp

theorem decodeStore_ne_illegal : decodeStore w ≠ .illegalOpcode := by
  unfold decodeStore; split <;> simp

theorem decodeJalr_ne_illegal : decodeJalr w ≠ .illegalOpcode := by
  unfold decodeJalr; split <;> simp

theorem decodeBranch_ne_illegal : decodeBranch w ≠ .illegalOpcode := by
  unfold decodeBranch; split <;> simp

theorem decodeAluReg_ne_illegal : decodeAluReg w ≠ .illegalOpcode := by
  unfold decodeAluReg decodeAluRegBase decodeAluRegAlt
  split
  case h_3 => simp
  all_goals split <;> simp

theorem decodeAluImm_ne_illegal : decodeAluImm w ≠ .illegalOpcode := by
  unfold decodeAluImm decodeShiftLeftImm decodeShiftRightImm
  split
  case h_2 | h_6 => split <;> simp
  all_goals simp

theorem decodeSystem_ne_illegal : decodeSystem w ≠ .illegalOpcode := by
  unfold decodeSystem; split <;> simp

end NeverIllegal

/-! ## The words each group reserves (R77) -/

section Reserved

variable {w : Word}

theorem decodeLoad_reserved_iff : decodeLoad w = .reservedSubop ↔
    (funct3Of w).toNat = 3 ∨ (funct3Of w).toNat = 6 ∨ (funct3Of w).toNat = 7 := by
  rcases funct3_cases (funct3Of w) with h | h | h | h | h | h | h | h <;> simp [decodeLoad, h]

theorem decodeStore_reserved_iff : decodeStore w = .reservedSubop ↔
    (funct3Of w).toNat = 3 ∨ (funct3Of w).toNat = 4 ∨ (funct3Of w).toNat = 5 ∨ (funct3Of w).toNat = 6 ∨
      (funct3Of w).toNat = 7 := by
  rcases funct3_cases (funct3Of w) with h | h | h | h | h | h | h | h <;> simp [decodeStore, h]

theorem decodeBranch_reserved_iff : decodeBranch w = .reservedSubop ↔
    (funct3Of w).toNat = 2 ∨ (funct3Of w).toNat = 3 := by
  rcases funct3_cases (funct3Of w) with h | h | h | h | h | h | h | h <;> simp [decodeBranch, h]

theorem decodeJalr_reserved_iff : decodeJalr w = .reservedSubop ↔ (funct3Of w).toNat ≠ 0 := by
  rcases funct3_cases (funct3Of w) with h | h | h | h | h | h | h | h <;> simp [decodeJalr, h]

theorem decodeAluRegBase_ne_reserved : decodeAluRegBase w ≠ .reservedSubop := by
  rcases funct3_cases (funct3Of w) with h | h | h | h | h | h | h | h <;> simp [decodeAluRegBase, h]

theorem decodeAluRegAlt_reserved_iff : decodeAluRegAlt w = .reservedSubop ↔
    (funct3Of w).toNat ≠ 0 ∧ (funct3Of w).toNat ≠ 5 := by
  rcases funct3_cases (funct3Of w) with h | h | h | h | h | h | h | h <;> simp [decodeAluRegAlt, h]

theorem decodeAluReg_reserved_iff : decodeAluReg w = .reservedSubop ↔
    ((funct7Of w).toNat ≠ 0 ∧ (funct7Of w).toNat ≠ 0b0100000) ∨
      ((funct7Of w).toNat = 0b0100000 ∧ (funct3Of w).toNat ≠ 0 ∧ (funct3Of w).toNat ≠ 5) := by
  unfold decodeAluReg
  split
  case h_1 hbase => simp [hbase, decodeAluRegBase_ne_reserved]
  case h_2 halt => simp [halt, decodeAluRegAlt_reserved_iff]
  case h_3 hbase halt =>
    exact iff_of_true rfl (.inl ⟨fun h => hbase (BitVec.eq_of_toNat_eq h), fun h => halt (BitVec.eq_of_toNat_eq h)⟩)

theorem decodeShiftLeftImm_reserved_iff : decodeShiftLeftImm w = .reservedSubop ↔ (funct7Of w).toNat ≠ 0 := by
  unfold decodeShiftLeftImm
  split
  case h_1 hbase => simp [hbase]
  case h_2 hbase => exact iff_of_true rfl (fun h => hbase (BitVec.eq_of_toNat_eq h))

theorem decodeShiftRightImm_reserved_iff : decodeShiftRightImm w = .reservedSubop ↔
    (funct7Of w).toNat ≠ 0 ∧ (funct7Of w).toNat ≠ 0b0100000 := by
  unfold decodeShiftRightImm
  split
  case h_1 hbase => simp [hbase]
  case h_2 halt => simp [halt]
  case h_3 hbase halt =>
    exact iff_of_true rfl ⟨fun h => hbase (BitVec.eq_of_toNat_eq h), fun h => halt (BitVec.eq_of_toNat_eq h)⟩

theorem decodeAluImm_reserved_iff : decodeAluImm w = .reservedSubop ↔
    ((funct3Of w).toNat = 1 ∧ (funct7Of w).toNat ≠ 0) ∨
      ((funct3Of w).toNat = 5 ∧ (funct7Of w).toNat ≠ 0 ∧ (funct7Of w).toNat ≠ 0b0100000) := by
  rcases funct3_cases (funct3Of w) with h | h | h | h | h | h | h | h <;>
    simp [decodeAluImm, h, decodeShiftLeftImm_reserved_iff, decodeShiftRightImm_reserved_iff]

/-- Every SYSTEM word spells an instruction (R76, R182). -/
theorem decodeSystem_ne_reserved : decodeSystem w ≠ .reservedSubop := by
  unfold decodeSystem; split <;> simp

end Reserved

namespace Machine

/-! ## The policy for reserved sub-encodings (R77) -/

/-- Only a reserved sub-encoding asks for the policy. -/
theorem executeWord_congr_policy {w : Word} (hd : decode w ≠ .reservedSubop) (p q : Config.ReservedSubopPolicy)
    (s : State) : executeWord p w s = executeWord q w s := by
  unfold executeWord
  split
  case h_1 | h_3 => rfl
  case h_2 hres => exact absurd hres hd

theorem tickUnder_running {s : State} (hr : s.run = .running) (policy : Config.ReservedSubopPolicy) :
    tickUnder policy s = executeWord policy s.fetch.1 s.fetch.2 := by
  simp only [tickUnder, hr]

theorem tickUnder_halted {s : State} (hr : s.run = .halted) (policy : Config.ReservedSubopPolicy) :
    tickUnder policy s = .fault .tickWhileHalted := by
  simp only [tickUnder, hr]

theorem tickUnder_reserved {s : State} (hr : s.run = .running) (hd : decode s.fetch.1 = .reservedSubop)
    (policy : Config.ReservedSubopPolicy) : tickUnder policy s = .next (reservedSubop policy s.fetch.2) := by
  simp only [tickUnder_running hr, executeWord, hd]

end Machine

namespace Claims

open Machine

theorem fetch_fst_eq_fetchedWord (s : State) : s.fetch.1 = fetchedWord s := fetch_word s

theorem fetch_sameRegs (s : State) : SameRegs s s.fetch.2 := fetch_readReg s

theorem fetch_sameMemory (s : State) : SameMemory s s.fetch.2 := by
  rw [SameMemory, fetch_mem]
  exact ⟨rfl, fun _ => rfl⟩

/-! ## The obligations -/

/-- Settles O13: every field of an encoded word reads back, constructor by constructor. -/
theorem decodeOfEncode : Obligations.DecodeOfEncode := fun _ => decode_encode

/-- Settles O14: each group of the decoder keeps every field, and a word is its own fields put together again. -/
theorem encodeOfDecode : Obligations.EncodeOfDecode := fun _ _ h => ⟨encode_of_decode h, wellFormed_of_decode h⟩

/-- Settles O10: a field is a quotient and a remainder, and the field that holds inst[31] counts it negatively. -/
theorem fieldsAndImmediatesOfEveryWord : Obligations.FieldsAndImmediatesOfEveryWord := fun w =>
  ⟨opcodeOf_toNat w, toNat_field w 7 5, funct3Of_toNat w, toNat_field w 15 5, toNat_field w 20 5, funct7Of_toNat w,
    immI_toInt w, immS_toInt w, immB_toInt w, immU_toNat w, immJ_toInt w⟩

/-- Settles O11, opcode by opcode: no group answers the class, and the last branch is left for every other opcode. -/
theorem illegalOpcodesAreTheUnrecognised : Obligations.IllegalOpcodesAreTheUnrecognised := by
  intro w
  rw [← opcodeOf_toNat]
  unfold decode
  split
  case h_1 hop => simp [hop, recognisedOpcodes, decodeLoad_ne_illegal]
  case h_2 hop => simp [hop, recognisedOpcodes, decodeStore_ne_illegal]
  case h_3 hop | h_4 hop | h_5 hop => simp [hop, recognisedOpcodes]
  case h_6 hop => simp [hop, recognisedOpcodes, decodeJalr_ne_illegal]
  case h_7 hop => simp [hop, recognisedOpcodes, decodeBranch_ne_illegal]
  case h_8 hop => simp [hop, recognisedOpcodes, decodeAluReg_ne_illegal]
  case h_9 hop => simp [hop, recognisedOpcodes, decodeAluImm_ne_illegal]
  case h_10 hop => simp [hop, recognisedOpcodes, decodeSystem_ne_illegal]
  case h_11 => simp_all [recognisedOpcodes, ← BitVec.toNat_inj]

/-- Settles O12, opcode by opcode: each group reserves its own line of the list. -/
theorem reservedSubencodingsAreTheListed : Obligations.ReservedSubencodingsAreTheListed := by
  intro w
  rw [← opcodeOf_toNat, ← funct3Of_toNat, ← funct7Of_toNat]
  unfold decode
  split
  case h_1 hop => simp [hop, reservedList, decodeLoad_reserved_iff]
  case h_2 hop => simp [hop, reservedList, decodeStore_reserved_iff]
  case h_3 hop | h_4 hop | h_5 hop => simp [hop, reservedList]
  case h_6 hop => simp [hop, reservedList, decodeJalr_reserved_iff]
  case h_7 hop => simp [hop, reservedList, decodeBranch_reserved_iff]
  case h_8 hop => simp [hop, reservedList, decodeAluReg_reserved_iff]
  case h_9 hop => simp [hop, reservedList, decodeAluImm_reserved_iff]
  case h_10 hop => simp [hop, reservedList, decodeSystem_ne_reserved]
  case h_11 => simp_all [reservedList, ← BitVec.toNat_inj]

/-- Settles O54: only the reserved class asks for the policy, and there `fatal` halts what the fetch left and `nop`
commits it at `pc + 4`. -/
theorem policiesDifferOnlyOnReservedWords : Obligations.PoliciesDifferOnlyOnReservedWords := by
  refine ⟨fun s hd => ?_, fun s hr hd => ?_, fun _ => rfl⟩
  · rw [← fetch_fst_eq_fetchedWord] at hd
    cases hr : s.run with
    | running => rw [tickUnder_running hr, tickUnder_running hr, executeWord_congr_policy hd]
    | halted => rw [tickUnder_halted hr, tickUnder_halted hr]
  · rw [← fetch_fst_eq_fetchedWord] at hd
    exact ⟨_, _, tickUnder_reserved hr hd .fatal, ⟨fetch_sameRegs s, fetch_sameMemory s, fetch_pc s, rfl⟩,
      tickUnder_reserved hr hd .nop, fetch_sameRegs s, fetch_sameMemory s, fetch_pcPlus4 s, (fetch_run s).trans hr⟩

end Claims

end Sys2Proof
end

section
/-! The statements of 40_fetch_step.md: the outcome, `pc` and frame of every instruction; the three shapes of a step and
what each leaves unchanged; then the eight proofs. -/

namespace Sys2Proof

/-- EBREAK is spelled by one word alone (R76). -/
theorem eq_ebreakWord_of_decode {w : Word} (h : decode w = .instr .ebreak) : w = ebreakWord :=
  (encode_of_decode h).symm.trans (by decide)

namespace Machine

/-! ## The fetch, case by case (R93, R97) -/

theorem fetch_valid {s : State} (h : s.mem.Valid s.pc) :
    s.fetch = (s.mem.word s.pc.toNat, s.setIr (s.mem.word s.pc.toNat)) := by
  rw [State.fetch, State.memRead_valid h]

theorem fetch_invalid {s : State} (h : ¬ s.mem.Valid s.pc) :
    s.fetch = (0#32, (s.emit ⟨.read, s.pc⟩).setIr 0#32) := by
  rw [State.fetch, State.memRead_invalid h]

/-! ## What the shape of an instruction's next state says -/

namespace ExecShape

variable {s t : State} {i : Instr}

/-- EBREAK raises Break (R181, R192). -/
theorem eq_raiseBreak (h : ExecShape s .ebreak t) : t = s.raiseBreak := by
  cases h with
  | brk => rfl
  | go _ hi | write _ _ _ hi | load _ _ _ hi | store _ _ _ hi => exact absurd rfl hi

/-- Every instruction but EBREAK commits (R94, R95). -/
theorem lastOutcome_eq_ok (h : ExecShape s i t) (hi : i ≠ .ebreak) : t.lastOutcome = some .ok := by
  cases h with
  | brk => exact absurd rfl hi
  | go | write | load | store => rfl

/-- Every instruction but EBREAK leaves the run state alone. -/
theorem run_eq (h : ExecShape s i t) (hi : i ≠ .ebreak) : t.run = s.run := by
  cases h with
  | brk => exact absurd rfl hi
  | go | write | load | store => simp

/-- No instruction writes `ir` (R99). -/
theorem ir_eq (h : ExecShape s i t) : t.ir = s.ir := by
  cases h with
  | brk => rfl
  | go | write | load | store => simp

/-- No instruction changes the size of memory. -/
theorem size_eq (h : ExecShape s i t) : t.mem.size = s.mem.size := by
  cases h with
  | brk => rfl
  | go | write | load | store => simp

end ExecShape

/-! ## A step, forwards -/

theorem step_eq_exec {s : State} {i : Instr} (hr : s.run = .running) (hd : decode s.fetch.1 = .instr i) :
    step s = exec i s.fetch.2 := by
  obtain ⟨t, ht, -⟩ := exec_shape i s.fetch.2
  rw [ht, step_of_exec hr hd ht]

/-- A running core has a step, whatever the fetched word is. -/
theorem exists_step {s : State} (hr : s.run = .running) : ∃ t, step s = .next t := by
  cases hd : decode s.fetch.1 with
  | instr i =>
    obtain ⟨t, ht, -⟩ := exec_shape i s.fetch.2
    exact ⟨t, step_of_exec hr hd ht⟩
  | reservedSubop => exact ⟨_, step_of_no_instr hr (.inl hd)⟩
  | illegalOpcode => exact ⟨_, step_of_no_instr hr (.inr hd)⟩

/-! ## Frames of the shared shapes (R99) -/

namespace State

variable {s : State}

/-- A register that a write changes is the one written, and not `x0` (R12, R14). -/
theorem eq_of_writeReg_readReg_ne {rd q : RegIdx} {v : Word} (h : (s.writeReg rd v).readReg q ≠ s.readReg q) :
    rd = q ∧ q ≠ 0#5 := by
  rw [writeReg_readReg] at h
  obtain ⟨⟨rfl, hq⟩, -⟩ := ite_ne_right_iff.mp h
  exact ⟨rfl, hq⟩

theorem eq_of_loadReg_readReg_ne {n : Width} {extend : BitVec n.bits → Word} {rd rs1 q : RegIdx} {imm : BitVec 12}
    (h : (s.loadReg n extend rd rs1 imm).readReg q ≠ s.readReg q) : rd = q ∧ q ≠ 0#5 := by
  rw [loadReg, commit_readReg, loadBits_state, ← memRead_readReg s (alignedBase (s.effAddr rs1 imm)) q] at h
  exact eq_of_writeReg_readReg_ne h

/-- A byte that a store changes lies in the aligned word containing its address (R116, R117). -/
theorem word_of_storeReg_byte_ne {n : Width} {rs2 rs1 : RegIdx} {imm : BitVec 12} {b : Nat}
    (h : (s.storeReg n rs2 rs1 imm).mem.byte b ≠ s.mem.byte b) : b / 4 = (s.effAddr rs1 imm).toNat / 4 := by
  rw [storeReg, commit_mem, storeBits_byte] at h
  obtain ⟨hb, -⟩ := ite_ne_right_iff.mp h
  omega

end State

end Machine

namespace Claims

open Machine

/-! ## Where an instruction leaves `pc` (R16) -/

theorem branchTo_pc_eq_branchPc (s : State) (taken : Bool) (offset : BitVec 13) :
    (s.branchTo taken offset).pc = branchPc s offset taken := by
  rw [State.branchTo_pc, State.pcPlus4_ofNat, sext13, add_signExtend, branchPc, nextWord]

/-- Every instruction leaves `pc` where the table of R16 puts it. -/
theorem exec_pc {i : Instr} {s t : State} (ht : exec i s = .next t) : t.pc = pcAfter s i := by
  cases i with
  | beq | bne | blt | bge | bltu | bgeu => cases ht; exact branchTo_pc_eq_branchPc s _ _
  | jal _ offset =>
    cases ht
    rw [State.writeAndGo_pc, sext21, add_signExtend, clearBit0_ofInt, pcAfter]
  | jalr _ rs1 imm =>
    cases ht
    rw [State.writeAndGo_pc, State.effAddr, sext12, add_signExtend, clearBit0_ofInt, pcAfter]
  | ebreak => cases ht; rfl
  | lb | lh | lw | lbu | lhu | sb | sh | sw | lui | auipc | systemIgnored => cases ht; exact s.pcPlus4_ofNat
  | add | sub | sll | slt | sltu | xor | srl | sra | or | and => cases ht; exact s.pcPlus4_ofNat
  | addi | slti | sltiu | xori | ori | andi | slli | srli | srai => cases ht; exact s.pcPlus4_ofNat

/-- The table of R16 reads `pc` and registers alone, which the fetch leaves as they were. -/
theorem pcAfter_fetch (s : State) (i : Instr) : pcAfter s.fetch.2 i = pcAfter s i := by
  cases i <;> simp only [pcAfter, branchPc, nextWord, fetch_pc, fetch_readReg]

/-! ## What an instruction can change (R99) -/

/-- A register that an instruction changes is its destination, and not `x0`. -/
theorem destination_of_exec_readReg_ne {i : Instr} {s t : State} {q : RegIdx} (ht : exec i s = .next t)
    (hq : t.readReg q ≠ s.readReg q) : destination i = some q ∧ q ≠ 0#5 := by
  cases i with
  | lb | lh | lw | lbu | lhu => cases ht; exact (State.eq_of_loadReg_readReg_ne hq).imp_left (congrArg some)
  | lui | auipc | jal | jalr => cases ht; exact (State.eq_of_writeReg_readReg_ne hq).imp_left (congrArg some)
  | add | sub | sll | slt | sltu | xor | srl | sra | or | and =>
    cases ht; exact (State.eq_of_writeReg_readReg_ne hq).imp_left (congrArg some)
  | addi | slti | sltiu | xori | ori | andi | slli | srli | srai =>
    cases ht; exact (State.eq_of_writeReg_readReg_ne hq).imp_left (congrArg some)
  | sb | sh | sw => cases ht; exact absurd (s.storeReg_readReg ..) hq
  | beq | bne | blt | bge | bltu | bgeu | ebreak | systemIgnored => cases ht; exact absurd rfl hq

/-- Only a store changes memory. -/
theorem exec_mem_of_no_store {i : Instr} {s t : State} (hi : storeAddress s i = none) (ht : exec i s = .next t) :
    t.mem = s.mem := by
  cases i with
  | sb | sh | sw => cases hi
  | lb | lh | lw | lbu | lhu => cases ht; exact s.loadReg_mem ..
  | lui | auipc | jal | jalr => cases ht; exact s.writeAndGo_mem ..
  | add | sub | sll | slt | sltu | xor | srl | sra | or | and => cases ht; exact s.writeAndGo_mem ..
  | addi | slti | sltiu | xori | ori | andi | slli | srli | srai => cases ht; exact s.writeAndGo_mem ..
  | beq | bne | blt | bge | bltu | bgeu | ebreak | systemIgnored => cases ht; rfl

/-- A byte that an instruction changes lies in the aligned word containing the address of a store. -/
theorem storeAddress_of_exec_byte_ne {i : Instr} {s t : State} {b : Nat} (ht : exec i s = .next t)
    (hb : t.mem.byte b ≠ s.mem.byte b) : ∃ addr, storeAddress s i = some addr ∧ b / 4 = addr.toNat / 4 := by
  cases i with
  | sb | sh | sw => cases ht; exact ⟨_, rfl, State.word_of_storeReg_byte_ne hb⟩
  | _ => exact absurd (by rw [exec_mem_of_no_store rfl ht]) hb

/-- A store's address is read from registers, which the fetch leaves as they were. -/
theorem storeAddress_fetch (s : State) (i : Instr) : storeAddress s.fetch.2 i = storeAddress s i := by
  cases i <;> simp only [storeAddress, fetch_effAddr]

/-! ## The three shapes of a step (R92, R95) -/

/-- What a step leaves: the next state of an instruction that commits, Break on EBREAK, or Fatal on a word that spells
no instruction. -/
inductive StepShape (s : State) : State → Prop where
  | ok {i : Instr} {t : State} (hd : decode (fetchedWord s) = .instr i) (hexec : exec i s.fetch.2 = .next t)
      (hout : t.lastOutcome = some .ok) (hrun : t.run = .running) : StepShape s t
  | brk (hd : decode (fetchedWord s) = .instr .ebreak) : StepShape s s.fetch.2.raiseBreak
  | fatal (hd : decode (fetchedWord s) = .reservedSubop ∨ decode (fetchedWord s) = .illegalOpcode) :
      StepShape s s.fetch.2.raiseFatal

theorem shape_of_step {s t : State} (h : step s = .next t) : StepShape s t := by
  obtain ⟨hr, hcases⟩ := step_cases h
  rw [fetch_fst_eq_fetchedWord] at hcases
  obtain ⟨i, hd, hexec⟩ | ⟨hd, rfl⟩ := hcases
  · have hshape := shape_of_exec hexec
    by_cases hi : i = .ebreak
    · subst hi
      rw [hshape.eq_raiseBreak]
      exact .brk hd
    · exact .ok hd hexec (hshape.lastOutcome_eq_ok hi) ((hshape.run_eq hi).trans ((fetch_run s).trans hr))
  · exact .fatal hd

/-- Break and Fatal leave what the fetch left, halted (R192, R193). -/
theorem haltsInPlace_fetch_halt (s : State) (o : TickOutcome) : HaltsInPlace s (s.fetch.2.halt o) :=
  ⟨fetch_sameRegs s, fetch_sameMemory s, fetch_pc s, rfl⟩

namespace StepShape

variable {s t : State} (h : StepShape s t)
include h

theorem ir_eq : t.ir = fetchedWord s := by
  cases h with
  | ok _ hexec => exact (shape_of_exec hexec).ir_eq.trans (fetch_fst_eq_fetchedWord s)
  | brk | fatal => exact fetch_fst_eq_fetchedWord s

theorem run_of_ok (hok : t.lastOutcome = some .ok) : t.run = .running := by
  cases h with
  | ok _ _ _ hrun => exact hrun
  | brk | fatal => cases hok

theorem haltsInPlace_of_not_ok (hok : t.lastOutcome ≠ some .ok) : HaltsInPlace s t := by
  cases h with
  | ok _ _ hout => exact absurd hout hok
  | brk | fatal => exact haltsInPlace_fetch_halt s _

theorem size_eq : t.mem.size = s.mem.size := by
  cases h with
  | ok _ hexec => rw [(shape_of_exec hexec).size_eq, fetch_mem]
  | brk | fatal => exact (fetch_sameMemory s).1

theorem destination_of_readReg_ne {q : RegIdx} (hq : t.readReg q ≠ s.readReg q) :
    ∃ i, decode (fetchedWord s) = .instr i ∧ destination i = some q ∧ q ≠ 0#5 := by
  cases h with
  | ok hd hexec =>
    rw [← fetch_readReg s] at hq
    exact ⟨_, hd, destination_of_exec_readReg_ne hexec hq⟩
  | brk | fatal => exact absurd (fetch_readReg s q) hq

theorem storeAddress_of_byte_ne {b : Nat} (hb : t.mem.byte b ≠ s.mem.byte b) :
    ∃ i addr, decode (fetchedWord s) = .instr i ∧ storeAddress s i = some addr ∧ b / 4 = addr.toNat / 4 := by
  cases h with
  | ok hd hexec =>
    rw [← fetch_mem s] at hb
    obtain ⟨addr, haddr, hword⟩ := storeAddress_of_exec_byte_ne hexec hb
    exact ⟨_, addr, hd, (storeAddress_fetch s _).symm.trans haddr, hword⟩
  | brk | fatal => exact absurd ((fetch_sameMemory s).2 b) hb

end StepShape

/-! ## The obligations -/

/-- Settles O42: the fetch returns 0, which is no opcode, and Fatal names the opcode and `pc` of what the fetch left. -/
theorem fetchFromBadPcIsFatal : Obligations.FetchFromBadPcIsFatal := by
  intro s hr hinvalid
  have hfetch := fetch_invalid hinvalid
  have hzero : decode 0#32 = .illegalOpcode := by decide
  rw [step_of_no_instr hr (.inr (by rwa [hfetch])), hfetch]
  rfl

/-- Settles O43, by the shapes of an instruction's next state. -/
theorem everyInstructionCompletes : Obligations.EveryInstructionCompletes := by
  intro i s
  obtain ⟨t, ht, hshape⟩ := exec_shape i s
  refine ⟨t, ht, fun hi => ⟨hshape.lastOutcome_eq_ok hi, hshape.run_eq hi⟩, ?_⟩
  rintro rfl
  rw [hshape.eq_raiseBreak, State.raiseBreak_lastOutcome]

/-- Settles O46: a running core steps on a word of each class, and only a running core does. -/
theorem stepExactlyWhenRunning : Obligations.StepExactlyWhenRunning :=
  fun _ => ⟨fun ⟨_, ht⟩ => (step_cases ht).1, exists_step⟩

/-- Settles O48, by the shapes of a step: one disjunct each. -/
theorem tickHasOneOfThreeOutcomes : Obligations.TickHasOneOfThreeOutcomes := by
  intro s t ht
  cases shape_of_step ht with
  | ok hd hexec hout hrun =>
    exact .inl ⟨hout, by rw [hout]; rfl, hrun, _, hd, (exec_pc hexec).trans (pcAfter_fetch s _)⟩
  | brk => exact .inr (.inl ⟨rfl, rfl, rfl, fetch_pc s⟩)
  | fatal =>
    refine .inr (.inr ⟨?_, rfl, rfl, fetch_pc s⟩)
    rw [State.raiseFatal_lastOutcome, State.raiseFatal_ir, fetch_pc]

/-- Settles O49: each clause is what the shapes of a step say of one part of the state. -/
theorem tickFrame : Obligations.TickFrame := by
  intro s t ht
  have hshape := shape_of_step ht
  refine ⟨hshape.ir_eq, hshape.run_of_ok, hshape.haltsInPlace_of_not_ok, ?_, fun q hq => ?_, hshape.size_eq,
    fun b => hshape.storeAddress_of_byte_ne⟩
  · by_contra hzero
    obtain ⟨_, _, _, hne⟩ := hshape.destination_of_readReg_ne hzero
    exact hne rfl
  · obtain ⟨i, hd, hdest, _⟩ := hshape.destination_of_readReg_ne hq
    exact ⟨i, hd, hdest⟩

/-- Settles O56, by the shapes of a step: after Break `ir` is the fetched word, which only EBREAK's word decodes to. -/
theorem stepEstablishesOutcomeAgrees : Obligations.StepEstablishesOutcomeAgrees := by
  intro s t ht
  cases shape_of_step ht with
  | ok _ _ hout hrun => rw [State.OutcomeAgrees, hout]; exact hrun
  | brk hd => exact ⟨rfl, (fetch_fst_eq_fetchedWord s).trans (eq_ebreakWord_of_decode hd)⟩
  | fatal => exact ⟨rfl, rfl, rfl⟩

/-- Settles O44: from a valid `pc` the fetch changes `ir` alone, and every decoded instruction is well formed. -/
theorem stepRunsDecodedInstruction : Obligations.StepRunsDecodedInstruction := by
  intro s i hr hvalid hd
  have hfetch := fetch_valid hvalid
  refine ⟨?_, wellFormed_of_decode hd⟩
  rw [step_eq_exec hr (by rw [hfetch]; exact hd), hfetch]
  rfl

/-- Settles O45: a word written in full under a valid address is read back from it. -/
theorem placedWordIsFetched : Obligations.PlacedWordIsFetched := by
  intro s w hvalid
  have hplaced : (s.withFetchWord 32 w).mem.Valid s.pc := by
    rw [State.withFetchWord, placeWord, Memory.Valid, Memory.size_writeMasked]
    exact hvalid
  refine ⟨rfl, rfl, ?_, fun _ => rfl⟩
  calc fetchedWord (s.withFetchWord 32 w)
      = (s.withFetchWord 32 w).mem.word s.pc.toNat := if_pos hplaced
    _ = BitVec.ofNat 32 (w % 2 ^ 32) := Memory.word_writeMasked_same _ _ _
    _ = BitVec.ofNat 32 w := BitVec.eq_of_toNat_eq (by simp)

end Claims

end Sys2Proof
end

section
/-! The statements of 41_loads.md: the loaded value as the sum of its bytes, the two extensions as numbers, and what the
shape of every load does to each part of the state; then the six proofs. -/

namespace Sys2Proof

namespace Machine

/-! ## A value as its bytes -/

/-- A value of 1, 2 or 4 bytes is the little-endian sum of any `d` that lists its bytes at their places and nothing
beyond them. -/
theorem Width.toNat_eq_sum (n : Width) (v : BitVec n.bits) {d : Nat → Nat}
    (hbyte : ∀ j < n.bytes, d j = (v.extractLsb' (8 * j) 8).toNat * 256 ^ j)
    (hbeyond : ∀ j, n.bytes ≤ j → d j = 0) :
    v.toNat = d 0 + d 1 + d 2 + d 3 := by
  simp only [BitVec.extractLsb'_toNat, Nat.shiftRight_eq_div_pow] at hbyte
  have hlt := v.isLt
  cases n with
  | byte =>
    rw [hbyte 0 (by decide), hbeyond 1 (by decide), hbeyond 2 (by decide), hbeyond 3 (by decide)]
    change v.toNat < 2 ^ 8 at hlt
    omega
  | half =>
    rw [hbyte 0 (by decide), hbyte 1 (by decide), hbeyond 2 (by decide), hbeyond 3 (by decide)]
    change v.toNat < 2 ^ 16 at hlt
    omega
  | word =>
    rw [hbyte 0 (by decide), hbyte 1 (by decide), hbyte 2 (by decide), hbyte 3 (by decide)]
    change v.toNat < 2 ^ 32 at hlt
    omega

namespace State

variable {s : State}

/-! ## The load path, whole (R106, R107, R113) -/

/-- A load from a word that is not backed gives 0 (R113). -/
theorem loadBits_unbacked {addr : Word} (h : ¬ addr.toNat - addr.toNat % 4 + 4 ≤ s.mem.size) (n : Width) :
    (s.loadBits addr n).1 = 0#n.bits := by
  rw [loadBits, memRead_invalid (mt (valid_alignedBase s.mem addr).mp h)]
  simp

/-- A word load from lane `k` of a backed word gives the word divided by `256 ^ k` (R106, R107). -/
theorem loadBits_word_toNat {addr : Word} (h : addr.toNat - addr.toNat % 4 + 4 ≤ s.mem.size) :
    (s.loadBits addr .word).1.toNat =
      (s.mem.word (addr.toNat - addr.toNat % 4)).toNat / 256 ^ (addr.toNat % 4) := by
  rw [loadBits, memRead_valid ((valid_alignedBase s.mem addr).mpr h), alignedBase_toNat, laneOf_toNat]
  have hwidth (w : Word) : (w.setWidth Width.word.bits).toNat = w.toNat :=
    congrArg BitVec.toNat (BitVec.setWidth_eq w)
  rw [hwidth, BitVec.toNat_ushiftRight, Nat.shiftRight_eq_div_pow, Nat.pow_mul]

end State

end Machine

namespace Claims

open Machine

/-! ## The loaded value as a number -/

/-- The load path gives the little-endian sum of the bytes of the access that lie in its containing word (R106, R107,
R113). -/
theorem loadBits_toNat (s : State) (addr : Word) (n : Width) :
    (s.loadBits addr n).1.toNat = loadedNat s.mem addr n.bytes := by
  unfold loadedNat
  split
  case isTrue hbacked =>
    refine n.toNat_eq_sum _ (fun j hj => ?_) (fun j hj => if_neg fun h => absurd h.1 (Nat.not_lt.mpr hj))
    rw [State.loadBits_byte s addr n j hj, byteTerm]
    by_cases hlane : addr.toNat % 4 + j < 4
    · rw [if_pos ⟨hj, by omega⟩, if_pos ⟨hbacked, hlane⟩]
    · rw [if_neg (by omega), if_neg (by omega), BitVec.toNat_ofNat, Nat.zero_mod, Nat.zero_mul]
  case isFalse hbacked => rw [State.loadBits_unbacked hbacked, BitVec.toNat_ofNat, Nat.zero_mod]

/-- Sign extension keeps the two's-complement integer (R108, R109). -/
theorem signExtend_eq_signedBytes {n : Width} (v : BitVec n.bits) :
    v.signExtend 32 = signedBytes n.bytes v.toNat := by
  rw [signedBytes, BitVec.signExtend, BitVec.toInt_eq_toNat_bmod, Nat.pow_mul]

/-- Zero extension keeps the number (R110 to R112). -/
theorem setWidth_eq_unsignedBytes {n : Width} (v : BitVec n.bits) :
    v.setWidth 32 = unsignedBytes n.bytes v.toNat := (BitVec.ofNat_toNat 32 v).symm

/-- At lane 3 a halfword load gives its first byte alone (R107). -/
theorem loadBits_half_lane3 {s : State} {addr : Word} (hlane : addr.toNat % 4 = 3) (hbacked : Backed s.mem addr) :
    (s.loadBits addr .half).1 = (s.mem.byte addr.toNat).setWidth Width.half.bits := by
  apply BitVec.eq_of_toNat_eq
  rw [loadBits_toNat, loadedNat, if_pos hbacked, BitVec.toNat_setWidth_of_le (by decide)]
  simp [byteTerm, hlane, Width.bytes]

/-- A byte is too small to reach the sign of a halfword. -/
theorem signExtend_setWidth_half (b : Byte) :
    (b.setWidth Width.half.bits).signExtend 32 = (b.setWidth Width.half.bits).setWidth 32 := by
  apply BitVec.signExtend_eq_setWidth_of_msb_false
  rw [BitVec.msb_eq_decide, BitVec.toNat_setWidth_of_le (by decide), decide_eq_false_iff_not, Nat.not_le]
  exact b.isLt.trans (by decide)

/-- Zero extension by way of a halfword is zero extension (R112). -/
theorem setWidth_setWidth_half (b : Byte) : (b.setWidth Width.half.bits).setWidth 32 = b.setWidth 32 :=
  BitVec.setWidth_setWidth (by decide)

/-! ## What the shape of every load does (R105, R113) -/

theorem addressIs (s : State) (rs1 : RegIdx) (imm : BitVec 12) : AddressIs s rs1 imm := add_signExtend _ imm

section LoadReg

variable (s : State) (n : Width) (extend : BitVec n.bits → Word) (rd rs1 : RegIdx) (imm : BitVec 12)

theorem loadReg_regWritten :
    RegWritten s (s.loadReg n extend rd rs1 imm) rd (extend (s.loadBits (s.effAddr rs1 imm) n).1) := by
  intro q
  rw [State.loadReg, State.commit_readReg, State.writeReg_readReg, State.loadBits_state, State.memRead_readReg]

theorem loadReg_commitsAt : CommitsAt s (s.loadReg n extend rd rs1 imm) (nextWord s) :=
  ⟨s.pcPlus4_ofNat, s.loadReg_ir .., s.loadReg_run .., rfl⟩

theorem loadReg_sameMemory : SameMemory s (s.loadReg n extend rd rs1 imm) := by
  rw [SameMemory, State.loadReg_mem]
  exact ⟨rfl, fun _ => rfl⟩

theorem loadReg_dataDiag : DataDiag s (s.loadReg n extend rd rs1 imm) .read (s.effAddr rs1 imm) := by
  rw [DataDiag, State.loadReg, State.commit_diags, State.writeReg_diags, State.loadBits_state, State.memRead_diags,
    ← alignedBase_ofNat]
  exact if_congr (valid_alignedBase s.mem _) rfl rfl

end LoadReg

/-- A load that `loadReg` carries out, with an extension that is `extend` on numbers, meets the rule of the loads. -/
theorem loadRule_of_loadReg {mk : RegIdx → RegIdx → BitVec 12 → Instr} {funct3 : BitVec 3} {n : Width}
    {ext : BitVec n.bits → Word} {extend : Nat → Nat → Word}
    (hencode : ∀ rd rs1 imm, encode (mk rd rs1 imm) = encI imm rs1 funct3 rd 0b0000011#7)
    (hwf : ∀ rd rs1 imm, (mk rd rs1 imm).wellFormed = true)
    (hexec : ∀ rd rs1 imm s, exec (mk rd rs1 imm) s = .next (s.loadReg n ext rd rs1 imm))
    (hext : ∀ v, ext v = extend n.bytes v.toNat) : LoadRule mk funct3 n.bytes extend := by
  intro rd rs1 imm s
  have hdecode := decode_encode (hwf rd rs1 imm)
  rw [hencode] at hdecode
  refine ⟨hdecode, addressIs s rs1 imm, _, hexec rd rs1 imm s, ?_, loadReg_commitsAt s n ext rd rs1 imm,
    loadReg_sameMemory s n ext rd rs1 imm, loadReg_dataDiag s n ext rd rs1 imm⟩
  rw [← loadBits_toNat, ← hext]
  exact loadReg_regWritten s n ext rd rs1 imm

/-- Each of the five loads is `loadReg`, with an extension that takes 0 to 0 (R108 to R112). -/
theorem exec_of_loadAddress {i : Instr} {s : State} {addr : Word} {rd : RegIdx} (haddr : loadAddress s i = some addr)
    (hrd : destination i = some rd) :
    ∃ (n : Width) (ext : BitVec n.bits → Word) (rs1 : RegIdx) (imm : BitVec 12),
      addr = s.effAddr rs1 imm ∧ ext 0#n.bits = 0#32 ∧ exec i s = .next (s.loadReg n ext rd rs1 imm) := by
  cases i with
  | lb | lh | lw | lbu | lhu =>
    cases haddr
    cases hrd
    exact ⟨_, _, _, _, rfl, by decide, rfl⟩
  | _ => cases haddr

/-! ## The obligations -/

/-- Settles O16: both are `loadReg` at one byte. -/
theorem loadByteResult : Obligations.LoadByteResult :=
  ⟨loadRule_of_loadReg (n := .byte) (fun _ _ _ => rfl) (fun _ _ _ => rfl) (fun _ _ _ _ => rfl)
    signExtend_eq_signedBytes,
    loadRule_of_loadReg (n := .byte) (fun _ _ _ => rfl) (fun _ _ _ => rfl) (fun _ _ _ _ => rfl)
    setWidth_eq_unsignedBytes⟩

/-- Settles O17: both are `loadReg` at two bytes. -/
theorem loadHalfwordResult : Obligations.LoadHalfwordResult :=
  ⟨loadRule_of_loadReg (n := .half) (fun _ _ _ => rfl) (fun _ _ _ => rfl) (fun _ _ _ _ => rfl)
    signExtend_eq_signedBytes,
    loadRule_of_loadReg (n := .half) (fun _ _ _ => rfl) (fun _ _ _ => rfl) (fun _ _ _ _ => rfl)
    setWidth_eq_unsignedBytes⟩

/-- Settles O18: LW is `loadReg` at four bytes. -/
theorem loadWordResult : Obligations.LoadWordResult :=
  loadRule_of_loadReg (n := .word) (fun _ _ _ => rfl) (fun _ _ _ => rfl) (fun _ _ _ _ => rfl)
    setWidth_eq_unsignedBytes

/-- Settles O19: the load path gives 0, which each extension keeps, and the one diagnostic. -/
theorem loadOutsideMemoryGivesZero : Obligations.LoadOutsideMemoryGivesZero := by
  intro i s addr rd haddr hrd hunbacked
  obtain ⟨n, ext, rs1, imm, rfl, hzero, hexec⟩ := exec_of_loadAddress haddr hrd
  have hwritten := loadReg_regWritten s n ext rd rs1 imm
  rw [State.loadBits_unbacked hunbacked, hzero] at hwritten
  exact ⟨_, hexec, hwritten, loadReg_commitsAt s n ext rd rs1 imm, loadReg_sameMemory s n ext rd rs1 imm,
    (loadReg_dataDiag s n ext rd rs1 imm).trans (if_neg hunbacked)⟩

/-- Settles O20: at lane 3 the halfword is one byte, too small for its sign to tell the extensions apart; the word load
is the quotient that the load path takes. -/
theorem wordCrossingLoadGivesContainedBytes : Obligations.WordCrossingLoadGivesContainedBytes := by
  refine ⟨fun rd rs1 imm s hlane hbacked => ?_, fun rd rs1 imm s hbacked => ?_⟩
  · have hwritten := loadReg_regWritten s .half (fun v => v.setWidth 32) rd rs1 imm
    have hsame : s.loadReg .half (fun v => v.signExtend 32) rd rs1 imm
        = s.loadReg .half (fun v => v.setWidth 32) rd rs1 imm := by
      simp only [State.loadReg, loadBits_half_lane3 hlane hbacked, signExtend_setWidth_half]
    rw [loadBits_half_lane3 hlane hbacked, setWidth_setWidth_half] at hwritten
    exact ⟨_, _, rfl, rfl, hsame, hsame ▸ hwritten⟩
  · refine ⟨_, rfl, ?_⟩
    have hbase : (s.effAddr rs1 imm).toNat / 4 * 4 = (s.effAddr rs1 imm).toNat - (s.effAddr rs1 imm).toNat % 4 := by
      omega
    rw [hbase, ← State.loadBits_word_toNat hbacked, BitVec.ofNat_toNat]
    exact loadReg_regWritten s .word (fun v => v.setWidth 32) rd rs1 imm

/-- Settles O15: the decoder is run on the sixteen words. -/
theorem sampleWordsDecode : Obligations.SampleWordsDecode := by
  unfold Obligations.SampleWordsDecode
  decide

end Claims

end Sys2Proof
end

section
/-! The statements of 42_stores.md: what the shape of every store does to each part of the state, and to every byte of
memory; then the four proofs. -/

namespace Sys2Proof

namespace Claims

open Machine

/-! ## What the shape of every store does (R116, R117, R121) -/

section StoreReg

variable (s : State) (n : Width) (rs2 rs1 : RegIdx) (imm : BitVec 12)

theorem storeReg_commitsAt : CommitsAt s (s.storeReg n rs2 rs1 imm) (nextWord s) :=
  ⟨s.pcPlus4_ofNat, s.storeReg_ir .., s.storeReg_run .., rfl⟩

theorem storeReg_dataDiag : DataDiag s (s.storeReg n rs2 rs1 imm) .write (s.effAddr rs1 imm) := by
  rw [DataDiag, State.storeReg, State.commit_diags, State.storeBits, State.memWrite_diags, ← alignedBase_ofNat]
  exact if_congr (valid_alignedBase s.mem _) rfl rfl

/-- From its address on, a store writes its bytes up to the end of the containing word, when that word is backed. -/
theorem storeReg_byte (a : Nat) : (s.storeReg n rs2 rs1 imm).mem.byte a =
    if Backed s.mem (s.effAddr rs1 imm) ∧ (s.effAddr rs1 imm).toNat ≤ a ∧ a < (s.effAddr rs1 imm).toNat + n.bytes
        ∧ a / 4 = (s.effAddr rs1 imm).toNat / 4
    then BitVec.ofNat 8 ((s.readReg rs2).toNat / 256 ^ (a - (s.effAddr rs1 imm).toNat))
    else s.mem.byte a := by
  rw [State.storeReg, State.commit_mem, State.storeBits_byte, extract_byte]
  exact if_congr (by omega) rfl rfl

theorem storeReg_sameMemory_of_not_backed (h : ¬ Backed s.mem (s.effAddr rs1 imm)) :
    SameMemory s (s.storeReg n rs2 rs1 imm) :=
  ⟨s.storeReg_size .., fun a => (storeReg_byte s n rs2 rs1 imm a).trans (if_neg fun hstored => h hstored.1)⟩

end StoreReg

/-- A store that `storeReg` carries out meets the rule of the stores. -/
theorem storeRule_of_storeReg {mk : RegIdx → RegIdx → BitVec 12 → Instr} {funct3 : BitVec 3} {n : Width}
    (hencode : ∀ rs2 rs1 imm, encode (mk rs2 rs1 imm) = encS imm rs2 rs1 funct3 0b0100011#7)
    (hwf : ∀ rs2 rs1 imm, (mk rs2 rs1 imm).wellFormed = true)
    (hexec : ∀ rs2 rs1 imm s, exec (mk rs2 rs1 imm) s = .next (s.storeReg n rs2 rs1 imm)) :
    StoreRule mk funct3 n.bytes := by
  intro rs2 rs1 imm s
  have hdecode := decode_encode (hwf rs2 rs1 imm)
  rw [hencode] at hdecode
  exact ⟨hdecode, addressIs s rs1 imm, _, hexec rs2 rs1 imm s, s.storeReg_readReg n rs2 rs1 imm,
    storeReg_commitsAt s n rs2 rs1 imm, s.storeReg_size n rs2 rs1 imm, storeReg_dataDiag s n rs2 rs1 imm,
    storeReg_byte s n rs2 rs1 imm⟩

/-- The instructions with a store address are the three stores, and each is `storeReg` (R118 to R120). -/
theorem exec_of_storeAddress {i : Instr} {s : State} {addr : Word} (haddr : storeAddress s i = some addr) :
    ∃ (n : Width) (rs2 rs1 : RegIdx) (imm : BitVec 12),
      addr = s.effAddr rs1 imm ∧ exec i s = .next (s.storeReg n rs2 rs1 imm) := by
  cases i with
  | sb | sh | sw =>
    cases haddr
    exact ⟨_, _, _, _, rfl, rfl⟩
  | _ => cases haddr

/-! ## The obligations -/

/-- Settles O21: SB is `storeReg` at one byte. -/
theorem storeByteResult : Obligations.StoreByteResult :=
  storeRule_of_storeReg (n := .byte) (fun _ _ _ => rfl) (fun _ _ _ => rfl) (fun _ _ _ _ => rfl)

/-- Settles O22: SH is `storeReg` at two bytes. -/
theorem storeHalfwordResult : Obligations.StoreHalfwordResult :=
  storeRule_of_storeReg (n := .half) (fun _ _ _ => rfl) (fun _ _ _ => rfl) (fun _ _ _ _ => rfl)

/-- Settles O23: SW is `storeReg` at four bytes. -/
theorem storeWordResult : Obligations.StoreWordResult :=
  storeRule_of_storeReg (n := .word) (fun _ _ _ => rfl) (fun _ _ _ => rfl) (fun _ _ _ _ => rfl)

/-- Settles O24: no byte meets the condition of a stored one, and the one diagnostic is added. -/
theorem storeOutsideMemoryStoresNothing : Obligations.StoreOutsideMemoryStoresNothing := by
  intro i s addr haddr hunbacked
  obtain ⟨n, rs2, rs1, imm, rfl, hexec⟩ := exec_of_storeAddress haddr
  exact ⟨_, hexec, s.storeReg_readReg n rs2 rs1 imm, storeReg_sameMemory_of_not_backed s n rs2 rs1 imm hunbacked,
    storeReg_commitsAt s n rs2 rs1 imm, (storeReg_dataDiag s n rs2 rs1 imm).trans (if_neg hunbacked)⟩

end Claims

end Sys2Proof
end

section
/-! The statements of 43_upper_immediate.md: the upper immediate as a number and a sum, and what the shape of every
instruction that only writes a register does to the whole state; then the proof. -/

namespace Sys2Proof

namespace Machine

/-- The upper immediate is 4096 times its field, with no extension (R68, R125). -/
theorem upper20_ofNat (imm : BitVec 20) : upper20 imm = BitVec.ofNat 32 (4096 * imm.toNat) := by
  have himm := imm.isLt
  apply BitVec.eq_of_toNat_eq
  rw [upper20, BitVec.toNat_append, BitVec.toNat_ofNat, BitVec.toNat_ofNat, Nat.shiftLeft_eq, Nat.zero_mod, Nat.or_zero]
  omega

/-- Adding the upper immediate adds 4096 times its field, modulo 2^32 (R126). -/
theorem add_upper20 (a : Word) (imm : BitVec 20) :
    a + upper20 imm = BitVec.ofNat 32 (a.toNat + 4096 * imm.toNat) := by
  rw [upper20_ofNat, BitVec.ofNat_add, BitVec.ofNat_toNat, BitVec.setWidth_eq]

end Machine

namespace Claims

open Machine

/-! ## What the shape of every register write does (R92, R98) -/

section WriteAndGo

variable (s : State) (rd : RegIdx) (v nextPc : Word)

theorem writeAndGo_regWritten : RegWritten s (s.writeAndGo rd v nextPc) rd v := s.writeReg_readReg rd v

theorem writeAndGo_commitsAt : CommitsAt s (s.writeAndGo rd v nextPc) nextPc :=
  ⟨rfl, s.writeAndGo_ir .., s.writeAndGo_run .., rfl⟩

theorem writeAndGo_sameMemory : SameMemory s (s.writeAndGo rd v nextPc) := by
  rw [SameMemory, State.writeAndGo_mem]
  exact ⟨rfl, fun _ => rfl⟩

/-- An instruction that `writeAndGo` carries out writes its register, goes on at its address, and does nothing else. -/
theorem writeAndGo_regResult : RegResult s (s.writeAndGo rd v nextPc) rd v nextPc :=
  ⟨writeAndGo_regWritten s rd v nextPc, writeAndGo_commitsAt s rd v nextPc, writeAndGo_sameMemory s rd v nextPc,
    s.writeAndGo_diags rd v nextPc⟩

/-- The same for one that goes on at `pc + 4`. -/
theorem writeAndGo_pcPlus4_regResult : RegResult s (s.writeAndGo rd v s.pcPlus4) rd v (nextWord s) := by
  rw [nextWord, ← s.pcPlus4_ofNat]
  exact writeAndGo_regResult s rd v s.pcPlus4

end WriteAndGo

/-! ## The obligation -/

/-- Settles O25: both are `writeAndGo` at `pc + 4`, with the upper immediate and with its sum with `pc`. -/
theorem upperImmediateResult : Obligations.UpperImmediateResult := by
  intro rd imm s
  have hlui : decode (encode (.lui rd imm)) = .instr (.lui rd imm) := decode_encode rfl
  have hauipc : decode (encode (.auipc rd imm)) = .instr (.auipc rd imm) := decode_encode rfl
  rw [← upper20_ofNat, ← add_upper20]
  exact ⟨hlui, hauipc, ⟨_, rfl, writeAndGo_pcPlus4_regResult s rd _⟩, _, rfl, writeAndGo_pcPlus4_regResult s rd _⟩

end Claims

end Sys2Proof
end

section
/-! The statements of 44_jumps.md: the evenness of an offset as a number, the target of a jump as a sum with its low bit
cleared, and what a jump that `writeAndGo` carries out does to the whole state; then the two proofs. -/

namespace Sys2Proof

/-- An offset that is even as a number has bit 0 clear, so that a word spells it (R65, R67, R68). -/
theorem evenOffset_of_toNat_even {w : Nat} {offset : BitVec w} (h : offset.toNat % 2 = 0) :
    evenOffset offset = true := by
  rw [evenOffset, BitVec.getLsbD, Nat.testBit_zero, h]
  rfl

namespace Machine

/-- The target of a jump: the sum of the address and the signed offset, modulo 2^32, with bit 0 cleared (R130, R131). -/
theorem clearBit0_add_signExtend (a : Word) {n : Nat} (offset : BitVec n) :
    clearBit0 (a + offset.signExtend 32) = BitVec.ofInt 32 (2 * ((a.toNat + offset.toInt) / 2)) := by
  rw [add_signExtend, clearBit0_ofInt]

end Machine

namespace Claims

open Machine

/-- A jump: the link is `pc + 4`, the target the sum with its low bit cleared, and nothing else changes (R130, R131). -/
theorem writeAndGo_jump_regResult (s : State) (rd : RegIdx) (a : Word) {n : Nat} (offset : BitVec n) :
    RegResult s (s.writeAndGo rd s.pcPlus4 (clearBit0 (a + offset.signExtend 32))) rd (nextWord s)
      (BitVec.ofInt 32 (2 * ((a.toNat + offset.toInt) / 2))) := by
  rw [nextWord, ← s.pcPlus4_ofNat, ← clearBit0_add_signExtend]
  exact writeAndGo_regResult s rd s.pcPlus4 _

/-! ## The obligations -/

/-- Settles O26: JAL is a jump from its own address; its word is that of the encoder, for an even offset. -/
theorem jalResult : Obligations.JalResult := by
  intro rd offset s
  have hdecode (heven : offset.toNat % 2 = 0) : decode (encode (.jal rd offset)) = .instr (.jal rd offset) :=
    decode_encode (evenOffset_of_toNat_even heven)
  exact ⟨hdecode, _, rfl, writeAndGo_jump_regResult s rd s.pc offset⟩

/-- Settles O27: JALR is a jump from the base register, read in the state before the link is written (D6). -/
theorem jalrResult : Obligations.JalrResult := by
  intro rd rs1 imm s
  have hdecode : decode (encode (.jalr rd rs1 imm)) = .instr (.jalr rd rs1 imm) := decode_encode rfl
  exact ⟨hdecode, _, rfl, writeAndGo_jump_regResult s rd (s.readReg rs1) imm⟩

end Claims

end Sys2Proof
end

section
/-! The statements of 45_branches.md: equality of words as equality of their numbers, and what the shape of every branch
does to the whole state; then the three proofs. -/

namespace Sys2Proof

namespace Machine

/-- BEQ compares 32-bit patterns, which are equal exactly when their numbers are (R136). -/
theorem eq_taken_toNat (a b : Word) : Cmp.eq.taken a b = decide (a.toNat = b.toNat) :=
  decide_eq_decide.mpr BitVec.toNat_inj.symm

/-- BNE is taken exactly when the numbers of the two patterns differ (R137). -/
theorem ne_taken_toNat (a b : Word) : Cmp.ne.taken a b = decide (a.toNat ≠ b.toNat) :=
  decide_eq_decide.mpr BitVec.toNat_inj.symm.not

end Machine

namespace Claims

open Machine

/-! ## What the shape of every branch does (R135) -/

section BranchTo

variable (s : State) (taken : Bool) (offset : BitVec 13)

theorem branchTo_commitsAt : CommitsAt s (s.branchTo taken offset) (branchPc s offset taken) :=
  ⟨branchTo_pc_eq_branchPc s taken offset, s.branchTo_ir .., s.branchTo_run .., rfl⟩

theorem branchTo_sameMemory : SameMemory s (s.branchTo taken offset) := by
  rw [SameMemory, State.branchTo_mem]
  exact ⟨rfl, fun _ => rfl⟩

end BranchTo

/-- A branch that `branchTo` carries out on the comparison `c` meets the rule of the branches, for any condition that
agrees with `c`. Its word spells an even offset only. -/
theorem branchRule_of_branchTo {mk : RegIdx → RegIdx → BitVec 13 → Instr} {funct3 : BitVec 3} (c : Cmp)
    {cond : Word → Word → Bool} (hcond : ∀ a b, c.taken a b = cond a b)
    (hencode : ∀ rs1 rs2 offset, encode (mk rs1 rs2 offset) = encB offset rs2 rs1 funct3 0b1100011#7)
    (hwf : ∀ rs1 rs2 offset, (mk rs1 rs2 offset).wellFormed = evenOffset offset)
    (hexec : ∀ rs1 rs2 offset s, exec (mk rs1 rs2 offset) s =
      .next (s.branchTo (c.taken (s.readReg rs1) (s.readReg rs2)) offset)) :
    BranchRule mk funct3 cond := by
  intro rs1 rs2 offset s
  have hdecode (heven : offset.toNat % 2 = 0) :
      decode (encB offset rs2 rs1 funct3 0b1100011#7) = .instr (mk rs1 rs2 offset) := by
    rw [← hencode]
    exact decode_encode ((hwf rs1 rs2 offset).trans (evenOffset_of_toNat_even heven))
  rw [← hcond]
  exact ⟨hdecode, _, hexec rs1 rs2 offset s, s.branchTo_readReg _ offset, branchTo_sameMemory s _ offset,
    s.branchTo_diags _ offset, branchTo_commitsAt s _ offset⟩

/-! ## The obligations -/

/-- Settles O28: both are `branchTo`, on the equality of the patterns and on its negation. -/
theorem equalityBranchResult : Obligations.EqualityBranchResult :=
  ⟨branchRule_of_branchTo .eq eq_taken_toNat (fun _ _ _ => rfl) (fun _ _ _ => rfl) (fun _ _ _ _ => rfl),
   branchRule_of_branchTo .ne ne_taken_toNat (fun _ _ _ => rfl) (fun _ _ _ => rfl) (fun _ _ _ _ => rfl)⟩

/-- Settles O29: both are `branchTo`, on the comparator's order of two's-complement integers and on its negation. -/
theorem signedBranchResult : Obligations.SignedBranchResult :=
  ⟨branchRule_of_branchTo .lt (fun _ _ => rfl) (fun _ _ _ => rfl) (fun _ _ _ => rfl) (fun _ _ _ _ => rfl),
   branchRule_of_branchTo .ge (fun _ _ => rfl) (fun _ _ _ => rfl) (fun _ _ _ => rfl) (fun _ _ _ _ => rfl)⟩

/-- Settles O30: both are `branchTo`, on the comparator's order of naturals and on its negation. -/
theorem unsignedBranchResult : Obligations.UnsignedBranchResult :=
  ⟨branchRule_of_branchTo .ltu (fun _ _ => rfl) (fun _ _ _ => rfl) (fun _ _ _ => rfl) (fun _ _ _ _ => rfl),
   branchRule_of_branchTo .geu (fun _ _ => rfl) (fun _ _ _ => rfl) (fun _ _ _ => rfl) (fun _ _ _ _ => rfl)⟩

end Claims

end Sys2Proof
end

section
/-! The statements of 46_alu_reg.md: the three logical operations of the alu on naturals, and the rule that every
instruction meets that hands two registers to the alu; then the four proofs. -/

namespace Sys2Proof

namespace Machine

/-! ## The logical operations as numbers (R146) -/

theorem alu_xor (a b : Word) : alu .xor a b = BitVec.ofNat 32 (a.toNat ^^^ b.toNat) := by
  rw [← BitVec.toNat_xor, BitVec.ofNat_toNat, BitVec.setWidth_eq, alu]

theorem alu_or (a b : Word) : alu .or a b = BitVec.ofNat 32 (a.toNat ||| b.toNat) := by
  rw [← BitVec.toNat_or, BitVec.ofNat_toNat, BitVec.setWidth_eq, alu]

theorem alu_and (a b : Word) : alu .and a b = BitVec.ofNat 32 (a.toNat &&& b.toNat) := by
  rw [← BitVec.toNat_and, BitVec.ofNat_toNat, BitVec.setWidth_eq, alu]

end Machine

namespace Claims

open Machine

/-- An instruction that `aluRegReg` carries out with the operation `op` meets the rule of the register-register
instructions, for any function that agrees with `op` (R147). -/
theorem regRegRule_of_aluRegReg {mk : RegIdx → RegIdx → RegIdx → Instr} {funct7 : BitVec 7} {funct3 : BitVec 3}
    (op : AluOp) {f : Word → Word → Word} (hf : ∀ a b, alu op a b = f a b)
    (hencode : ∀ rd rs1 rs2, encode (mk rd rs1 rs2) = encR funct7 rs2 rs1 funct3 rd 0b0110011#7)
    (hwf : ∀ rd rs1 rs2, (mk rd rs1 rs2).wellFormed = true)
    (hexec : ∀ rd rs1 rs2 s, exec (mk rd rs1 rs2) s = .next (s.aluRegReg op rd rs1 rs2)) :
    RegRegRule mk funct7 funct3 f := by
  intro rd rs1 rs2 s
  have hdecode : decode (encR funct7 rs2 rs1 funct3 rd 0b0110011#7) = .instr (mk rd rs1 rs2) := by
    rw [← hencode]
    exact decode_encode (hwf rd rs1 rs2)
  rw [← hf]
  exact ⟨hdecode, _, hexec rd rs1 rs2 s, writeAndGo_pcPlus4_regResult s rd _⟩

/-! ## The obligations -/

/-- Settles O31: both are `aluRegReg`, with the sum and the difference modulo 2^32. -/
theorem addSubResult : Obligations.AddSubResult :=
  ⟨regRegRule_of_aluRegReg .add alu_add (fun _ _ _ => rfl) (fun _ _ _ => rfl) (fun _ _ _ _ => rfl),
   regRegRule_of_aluRegReg .sub alu_sub (fun _ _ _ => rfl) (fun _ _ _ => rfl) (fun _ _ _ _ => rfl)⟩

/-- Settles O32: the three are `aluRegReg`, with the product, the quotient and the floor quotient by a power of two. -/
theorem shiftResult : Obligations.ShiftResult :=
  ⟨regRegRule_of_aluRegReg .sll alu_sll (fun _ _ _ => rfl) (fun _ _ _ => rfl) (fun _ _ _ _ => rfl),
   regRegRule_of_aluRegReg .srl alu_srl (fun _ _ _ => rfl) (fun _ _ _ => rfl) (fun _ _ _ _ => rfl),
   regRegRule_of_aluRegReg .sra alu_sra (fun _ _ _ => rfl) (fun _ _ _ => rfl) (fun _ _ _ _ => rfl)⟩

/-- Settles O33: both are `aluRegReg`, with the order of two's-complement integers and that of naturals. -/
theorem setLessThanResult : Obligations.SetLessThanResult :=
  ⟨regRegRule_of_aluRegReg .slt alu_slt (fun _ _ _ => rfl) (fun _ _ _ => rfl) (fun _ _ _ _ => rfl),
   regRegRule_of_aluRegReg .sltu alu_sltu (fun _ _ _ => rfl) (fun _ _ _ => rfl) (fun _ _ _ _ => rfl)⟩

/-- Settles O34: the three are `aluRegReg`, with the bitwise operations on naturals below 2^32. -/
theorem logicalResult : Obligations.LogicalResult :=
  ⟨regRegRule_of_aluRegReg .xor alu_xor (fun _ _ _ => rfl) (fun _ _ _ => rfl) (fun _ _ _ _ => rfl),
   regRegRule_of_aluRegReg .or alu_or (fun _ _ _ => rfl) (fun _ _ _ => rfl) (fun _ _ _ _ => rfl),
   regRegRule_of_aluRegReg .and alu_and (fun _ _ _ => rfl) (fun _ _ _ => rfl) (fun _ _ _ _ => rfl)⟩

end Claims

end Sys2Proof
end

section
/-! The statements of 47_alu_imm.md: the sign-extended immediate as an integer, and the rules that every instruction meets
that hands a register and an immediate, or a register and a shift amount, to the alu; then the four proofs. -/

namespace Sys2Proof

/-- The sign-extended immediate is the 12-bit integer modulo 2^32 (R68). -/
theorem sext12_ofInt (imm : BitVec 12) : sext12 imm = BitVec.ofInt 32 imm.toInt := rfl

namespace Claims

open Machine

/-- An instruction that `aluRegImm` carries out with the operation `op` meets the rule of the register-immediate
instructions, for any function that agrees with `op` (R165). -/
theorem regImmRule_of_aluRegImm {mk : RegIdx → RegIdx → BitVec 12 → Instr} {funct3 : BitVec 3}
    (op : AluOp) {f : Word → Word → Word} (hf : ∀ a b, alu op a b = f a b)
    (hencode : ∀ rd rs1 imm, encode (mk rd rs1 imm) = encI imm rs1 funct3 rd 0b0010011#7)
    (hwf : ∀ rd rs1 imm, (mk rd rs1 imm).wellFormed = true)
    (hexec : ∀ rd rs1 imm s, exec (mk rd rs1 imm) s = .next (s.aluRegImm op rd rs1 imm)) :
    RegImmRule mk funct3 f := by
  intro rd rs1 imm s
  have hdecode : decode (encI imm rs1 funct3 rd 0b0010011#7) = .instr (mk rd rs1 imm) := by
    rw [← hencode]
    exact decode_encode (hwf rd rs1 imm)
  rw [← hf, ← sext12_ofInt]
  exact ⟨hdecode, _, hexec rd rs1 imm s, writeAndGo_pcPlus4_regResult s rd _⟩

/-- A shift by an immediate that `aluRegImm` carries out with the operation `op` meets the rule of those shifts, for any
function that agrees with `op` on the low five bits of its second operand. The upper seven bits of the word stand above
the amount in the immediate and do not reach the result (R69, R165, R174). -/
theorem shiftImmRule_of_aluRegImm {mk : RegIdx → RegIdx → BitVec 5 → Instr} {funct7 : BitVec 7} {funct3 : BitVec 3}
    (op : AluOp) {f : Word → Nat → Word} (hf : ∀ a b, alu op a b = f a (b.toNat % 32))
    (hencode : ∀ rd rs1 shamt, encode (mk rd rs1 shamt) = encR funct7 shamt rs1 funct3 rd 0b0010011#7)
    (hwf : ∀ rd rs1 shamt, (mk rd rs1 shamt).wellFormed = true)
    (hexec : ∀ rd rs1 shamt s, exec (mk rd rs1 shamt) s = .next (s.aluRegImm op rd rs1 (shiftImm funct7 shamt))) :
    ShiftImmRule mk funct7 funct3 f := by
  intro rd rs1 shamt s
  have hdecode : decode (encR funct7 shamt rs1 funct3 rd 0b0010011#7) = .instr (mk rd rs1 shamt) := by
    rw [← hencode]
    exact decode_encode (hwf rd rs1 shamt)
  rw [← shiftImm_amount funct7 shamt, ← hf]
  exact ⟨hdecode, _, hexec rd rs1 shamt s, writeAndGo_pcPlus4_regResult s rd _⟩

/-! ## The obligations -/

/-- Settles O35: `aluRegImm` with the sum modulo 2^32. -/
theorem addImmediateResult : Obligations.AddImmediateResult :=
  regImmRule_of_aluRegImm .add alu_add (fun _ _ _ => rfl) (fun _ _ _ => rfl) (fun _ _ _ _ => rfl)

/-- Settles O36: both are `aluRegImm`, with the order of two's-complement integers and that of naturals. -/
theorem setLessThanImmediateResult : Obligations.SetLessThanImmediateResult :=
  ⟨regImmRule_of_aluRegImm .slt alu_slt (fun _ _ _ => rfl) (fun _ _ _ => rfl) (fun _ _ _ _ => rfl),
   regImmRule_of_aluRegImm .sltu alu_sltu (fun _ _ _ => rfl) (fun _ _ _ => rfl) (fun _ _ _ _ => rfl)⟩

/-- Settles O37: the three are `aluRegImm`, with the bitwise operations on naturals below 2^32. -/
theorem logicalImmediateResult : Obligations.LogicalImmediateResult :=
  ⟨regImmRule_of_aluRegImm .xor alu_xor (fun _ _ _ => rfl) (fun _ _ _ => rfl) (fun _ _ _ _ => rfl),
   regImmRule_of_aluRegImm .or alu_or (fun _ _ _ => rfl) (fun _ _ _ => rfl) (fun _ _ _ _ => rfl),
   regImmRule_of_aluRegImm .and alu_and (fun _ _ _ => rfl) (fun _ _ _ => rfl) (fun _ _ _ _ => rfl)⟩

/-- Settles O38: the three are `aluRegImm`, with the product, the quotient and the floor quotient by a power of two; the
bit that tells SRAI from SRLI lies above the amount. -/
theorem shiftImmediateResult : Obligations.ShiftImmediateResult :=
  ⟨shiftImmRule_of_aluRegImm .sll alu_sll (fun _ _ _ => rfl) (fun _ _ _ => rfl) (fun _ _ _ _ => rfl),
   shiftImmRule_of_aluRegImm .srl alu_srl (fun _ _ _ => rfl) (fun _ _ _ => rfl) (fun _ _ _ _ => rfl),
   shiftImmRule_of_aluRegImm .sra alu_sra (fun _ _ _ => rfl) (fun _ _ _ => rfl) (fun _ _ _ _ => rfl)⟩

end Claims

end Sys2Proof
end

section
/-! The statements of 48_system.md: the two kinds of SYSTEM word, and what halting leaves, on its own and after the fetch;
then the four proofs. -/

namespace Sys2Proof

theorem decode_ebreakWord : decode ebreakWord = .instr .ebreak := by decide

/-- Every word of the SYSTEM opcode but the breakpoint word is an ignored one, with its own fields (R76, R182). -/
theorem decode_of_system_opcode {w : Word} (hop : opcodeOf w = 0b1110011#7) (hw : w ≠ ebreakWord) :
    decode w = .instr (.systemIgnored (iField w) (rs1Of w) (funct3Of w) (rdOf w)) := by
  simp only [decode, hop, decodeSystem, if_neg hw]

/-- A word of either fatal class spells no instruction (R77, R78, R81). -/
theorem decode_ne_instr {w : Word} (hd : decode w = .reservedSubop ∨ decode w = .illegalOpcode) (i : Instr) :
    decode w ≠ .instr i := by
  obtain hd | hd := hd
  all_goals rw [hd]; exact OpSel.noConfusion

namespace Claims

open Machine

/-- Halting changes the run state and the record of the outcome alone (R192, R193). -/
theorem haltsInPlace_halt (s : State) (o : TickOutcome) : HaltsInPlace s (s.halt o) :=
  ⟨s.halt_readReg o, ⟨rfl, fun _ => rfl⟩, rfl, rfl⟩

/-- A bare commit at `pc + 4` changes `pc` and the record of the outcome alone (R94). -/
theorem commit_pcPlus4_commitsAt (s : State) : CommitsAt s (s.commit s.pcPlus4) (nextWord s) :=
  ⟨s.pcPlus4_ofNat, rfl, rfl, rfl⟩

/-- Fatal after a fetch names the fetched word's opcode and its `pc` (R190). -/
theorem fetch_raiseFatal_lastOutcome (s : State) :
    s.fetch.2.raiseFatal.lastOutcome = some (.fatal (opcodeOf (fetchedWord s)) s.pc) := by
  rw [State.raiseFatal_lastOutcome, fetch_ir, fetch_fst_eq_fetchedWord, fetch_pc]

/-! ## The obligations -/

/-- Settles O41: the step is Fatal on what the fetch left. -/
theorem fatalWordHaltsInPlace : Obligations.FatalWordHaltsInPlace := by
  intro s hr hd
  rw [← fetch_fst_eq_fetchedWord] at hd
  exact ⟨_, step_of_no_instr hr hd.symm, haltsInPlace_fetch_halt s _, fetch_fst_eq_fetchedWord s,
    fetch_raiseFatal_lastOutcome s, rfl⟩

/-- Settles O50, by the shapes of a step: one that commits ran an instruction, and not EBREAK, which would have halted. -/
theorem onlyEbreakOrFatalWordHalts : Obligations.OnlyEbreakOrFatalWordHalts := by
  intro s t ht
  cases shape_of_step ht with
  | ok hd hexec _ hrun =>
    refine iff_of_false (fun hhalted => by cases hrun.symm.trans hhalted) ?_
    rintro (hw | hnone)
    · cases hd.symm.trans ((congrArg decode hw).trans decode_ebreakWord)
      cases hexec
      cases hrun
    · exact hnone _ hd
  | brk hd => exact iff_of_true rfl (.inl (eq_ebreakWord_of_decode hd))
  | fatal hd => exact iff_of_true rfl (.inr (decode_ne_instr hd))

/-- Settles O40: the decoder tries the breakpoint word first, and the ignored instruction is a bare commit. -/
theorem ignoredSystemWordResult : Obligations.IgnoredSystemWordResult := by
  refine ⟨fun w hop hw => decode_of_system_opcode (BitVec.eq_of_toNat_eq ?_) hw, fun _ _ _ _ s => ?_⟩
  · exact (opcodeOf_toNat w).trans hop
  · exact ⟨_, rfl, s.commit_readReg _, ⟨rfl, fun _ => rfl⟩, rfl, commit_pcPlus4_commitsAt s⟩

/-- Settles O39: EBREAK halts with Break. -/
theorem ebreakResult : Obligations.EbreakResult :=
  ⟨decode_ebreakWord, fun s => ⟨_, rfl, haltsInPlace_halt s .brk, rfl, rfl, rfl, rfl⟩⟩

end Claims

end Sys2Proof
end

section
/-! The statements of 60_exceptions.md: what each move of the host can do, said once, and which diagnostics an instruction
adds; then the two proofs. -/

namespace Sys2Proof

namespace Machine

/-! ## The moves of the host (R214) -/

/-- What a move of the host that is neither a tick nor a reset leaves: registers, `pc`, `ir` and run state as they were,
and a canonical memory canonical. -/
structure KeepsCore (s t : State) : Prop where
  x : t.x = s.x
  pc : t.pc = s.pc
  ir : t.ir = s.ir
  run : t.run = s.run
  wf : s.mem.wf = true → t.mem.wf = true

namespace KeepsCore

variable (s : State)

theorem refl : KeepsCore s s := ⟨rfl, rfl, rfl, rfl, id⟩

theorem emit (d : Diag) : KeepsCore s (s.emit d) := ⟨rfl, rfl, rfl, rfl, id⟩

theorem memRead (a : Word) : KeepsCore s (s.memRead a).2 := by
  obtain h | h := s.memRead_state a
  · rw [h]; exact refl s
  · rw [h]; exact emit s _

theorem memWrite (a v : Word) (mask : BitVec 4) : KeepsCore s (s.memWrite a v mask) :=
  ⟨s.memWrite_x a v mask, s.memWrite_pc a v mask, s.memWrite_ir a v mask, s.memWrite_run a v mask,
    fun hwf => State.memWrite_wf hwf a v mask⟩

theorem fill (a : Word) (n : Nat) (v : Word) : KeepsCore s (s.fill a n v) := by
  by_cases hspan : s.mem.ValidSpan a n
  · rw [State.fill_valid hspan]
    exact ⟨rfl, rfl, rfl, rfl, Memory.wf_fillWords v hspan.2⟩
  · rw [State.fill_invalid hspan]
    exact emit s _

theorem dump (a : Word) (n : Nat) : KeepsCore s (s.dump a n).2 := by
  by_cases hspan : s.mem.ValidSpan a n
  · rw [State.dump_valid hspan]
    exact refl s
  · rw [State.dump_invalid hspan]
    exact emit s _

end KeepsCore

/-- What a move of the host that answers a next state did: a step, a reset, or something that left the core alone. -/
theorem hostMove_cases {m : HostMove} {s t : State} {a : HostAnswer} (h : hostMove m s = .next (a, t)) :
    (m = .tick ∧ step s = .next t) ∨ (∃ entryPc irAfter, m = .reset entryPc irAfter ∧ t = s.hostReset entryPc irAfter) ∨
      KeepsCore s t := by
  cases m with
  | tick =>
    unfold hostMove at h
    cases hstep : step s with
    | next u => rw [hstep] at h; cases h; exact .inl ⟨rfl, rfl⟩
    | fault | refused => rw [hstep] at h; cases h
  | reset entryPc irAfter => cases h; exact .inr (.inl ⟨entryPc, irAfter, rfl, rfl⟩)
  | inspect => cases h; exact .inr (.inr (.refl s))
  | read => cases h; exact .inr (.inr (.memRead s _))
  | write => cases h; exact .inr (.inr (.memWrite s _ _ _))
  | fill => cases h; exact .inr (.inr (.fill s _ _ _))
  | dump => cases h; exact .inr (.inr (.dump s _ _))

/-- A halted core has no step (R200, decision D11). -/
theorem step_halted {s : State} (hr : s.run = .halted) : step s = .fault .tickWhileHalted := tickUnder_halted hr _

end Machine

namespace Claims

open Machine

/-! ## The diagnostics of an instruction (R113, R121, R197) -/

/-- A data access adds no diagnostic, or one and its containing word is not backed. -/
theorem DataDiag.cases {s t : State} {kind : DiagKind} {addr : Word} (h : DataDiag s t kind addr) :
    t.diags = s.diags ∨
      ¬ Backed s.mem addr ∧ t.diags = ⟨kind, BitVec.ofNat 32 (addr.toNat - addr.toNat % 4)⟩ :: s.diags := by
  by_cases hbacked : Backed s.mem addr
  · exact .inl (h.trans (if_pos hbacked))
  · exact .inr ⟨hbacked, h.trans (if_neg hbacked)⟩

/-- The diagnostics depend on memory and the earlier diagnostics alone. -/
theorem DataDiag.congr {s s' t : State} {kind : DiagKind} {addr : Word} (h : DataDiag s' t kind addr)
    (hmem : s'.mem = s.mem) (hdiags : s'.diags = s.diags) : DataDiag s t kind addr := by
  rwa [DataDiag, hmem, hdiags] at h

/-- A load's address is read from registers, which the fetch leaves as they were. -/
theorem loadAddress_fetch (s : State) (i : Instr) : loadAddress s.fetch.2 i = loadAddress s i := by
  cases i <;> simp only [loadAddress, fetch_effAddr]

/-- The data access of an instruction: a load reads from its address, a store writes to its address. -/
inductive DataAccess (s : State) (i : Instr) : DiagKind → Word → Prop where
  | read {addr : Word} (h : loadAddress s i = some addr) : DataAccess s i .read addr
  | write {addr : Word} (h : storeAddress s i = some addr) : DataAccess s i .write addr

/-- The fetch leaves the data access of the instruction it fetched as it was. -/
theorem DataAccess.of_fetch {s : State} {i : Instr} {kind : DiagKind} {addr : Word}
    (h : DataAccess s.fetch.2 i kind addr) : DataAccess s i kind addr := by
  cases h with
  | read h => exact .read ((loadAddress_fetch s i).symm.trans h)
  | write h => exact .write ((storeAddress_fetch s i).symm.trans h)

/-- An instruction adds no diagnostic but that of its data access. -/
theorem exec_diags {i : Instr} {s t : State} (ht : exec i s = .next t) :
    t.diags = s.diags ∨ ∃ kind addr, DataAccess s i kind addr ∧ DataDiag s t kind addr := by
  cases i with
  | lb | lh | lw | lbu | lhu => cases ht; exact .inr ⟨_, _, .read rfl, loadReg_dataDiag ..⟩
  | sb | sh | sw => cases ht; exact .inr ⟨_, _, .write rfl, storeReg_dataDiag ..⟩
  | lui | auipc | jal | jalr => cases ht; exact .inl (s.writeAndGo_diags ..)
  | add | sub | sll | slt | sltu | xor | srl | sra | or | and => cases ht; exact .inl (s.writeAndGo_diags ..)
  | addi | slti | sltiu | xori | ori | andi | slli | srli | srai => cases ht; exact .inl (s.writeAndGo_diags ..)
  | beq | bne | blt | bge | bltu | bgeu | ebreak | systemIgnored => cases ht; exact .inl rfl

/-! ## The obligations -/

/-- Settles O47: a tick would be a step, and every other move but reset leaves the run state alone. -/
theorem haltedCoreOnlyResets : Obligations.HaltedCoreOnlyResets := by
  intro s hr
  refine ⟨step_halted hr, fun m a t hm => ?_⟩
  obtain ⟨-, hstep⟩ | ⟨entryPc, irAfter, hreset, -⟩ | hkeep := hostMove_cases hm
  · rw [step_halted hr] at hstep
    cases hstep
  · exact .inl ⟨entryPc, irAfter, hreset⟩
  · exact .inr (hkeep.run.trans hr)

/-- Settles O51: a bad fetch emits and ends Fatal; after a good one, the instruction's data access alone can emit. -/
theorem tickDiagnostics : Obligations.TickDiagnostics := by
  intro s t ht
  by_cases hvalid : s.mem.Valid s.pc
  · have hdiags : s.fetch.2.diags = s.diags := by rw [fetch_diags, if_pos hvalid]
    cases shape_of_step ht with
    | @ok i _ hd hexec hout =>
      obtain hnone | ⟨kind, addr, haccess, hdata⟩ := exec_diags hexec
      · exact .inr (.inl ⟨hvalid, hnone.trans hdiags⟩)
      · obtain hnone | ⟨hunbacked, hone⟩ := (hdata.congr (fetch_mem s) hdiags).cases
        · exact .inr (.inl ⟨hvalid, hnone⟩)
        · refine .inr (.inr ⟨hvalid, hout, i, addr, hd, hunbacked, ?_⟩)
          cases haccess.of_fetch with
          | read haddr => exact .inl ⟨haddr, hone⟩
          | write haddr => exact .inr ⟨haddr, hone⟩
    | brk | fatal => exact .inr (.inl ⟨hvalid, hdiags⟩)
  · have hbad := fetchFromBadPcIsFatal s (step_cases ht).1 hvalid
    cases ht.symm.trans hbad
    exact .inl ⟨hvalid, rfl, rfl⟩

end Claims

end Sys2Proof
end

section
/-! The statements of 70_reset_and_hazards.md: the image loader word by word, the last step of a run, and what a fetch
and a halt leave to be fetched; then the five proofs. -/

namespace Sys2Proof

namespace Machine

namespace Memory

variable (m : Memory)

theorem words_succ (a n : Nat) : m.words a (n + 1) = m.words a n ++ [m.word (a + 4 * n)] := by
  rw [words, List.range_succ, List.map_append, List.map_singleton, words]

/-- A write above a span leaves the words of the span alone. -/
theorem words_writeMasked_above {a b n : Nat} (h : a + 4 * n ≤ b) (v : Word) (mask : BitVec 4) :
    (m.writeMasked b v mask).words a n = m.words a n := by
  refine List.map_congr_left fun k hk => ?_
  have hk := List.mem_range.mp hk
  exact word_writeMasked_ne m v mask (.inl (by omega))

end Memory

/-! ## The image loader (R217) -/

theorem loadFrom_size (lines : List ImageLine) (cursor : Word) (s : State) :
    (loadFrom cursor lines s).mem.size = s.mem.size := by
  induction lines generalizing cursor s with
  | nil => rfl
  | cons line lines ih => cases line <;> simp [loadFrom, ih]

/-- The last of a list of words is stored last, at the cursor advanced past the others. -/
theorem loadFrom_words_concat (ws : List Word) (w cursor : Word) (s : State) :
    loadFrom cursor ((ws ++ [w]).map .word) s =
      (loadFrom cursor (ws.map .word) s).memWrite (cursor + BitVec.ofNat 32 (4 * ws.length)) w 0b1111#4 := by
  induction ws generalizing cursor s with
  | nil => simp [loadFrom]
  | cons v ws ih =>
    have hcursor : cursor + 4#32 + BitVec.ofNat 32 (4 * ws.length) =
        cursor + BitVec.ofNat 32 (4 * (v :: ws).length) := by
      rw [List.length_cons, Nat.mul_add, Nat.add_comm, BitVec.ofNat_add, BitVec.add_assoc]
    rw [← hcursor]
    exact ih (cursor + 4#32) (s.memWrite cursor v 0b1111#4)

/-! ## Runs (R218) -/

/-- A run ends in a step that halts. -/
theorem exists_step_of_runToHalt {fuel : Nat} {s t : State} (h : runToHalt fuel s = some t) :
    ∃ u, step u = .next t ∧ t.run = .halted := by
  induction fuel generalizing s with
  | zero => cases h
  | succ fuel ih =>
    unfold runToHalt at h
    split at h
    case h_1 u hstep =>
      split at h
      case h_1 => exact ih h
      case h_2 hhalted => cases h; exact ⟨s, hstep, hhalted⟩
    case h_2 | h_3 => cases h

end Machine

namespace Claims

open Machine

/-! ## What stands at `pc` after a halt (R192, R193) -/

/-- A halt leaves at `pc` what the tick fetched. -/
theorem fetchedWord_fetch_halt (s : State) (o : TickOutcome) : fetchedWord (s.fetch.2.halt o) = fetchedWord s := by
  rw [fetchedWord, State.halt_mem, State.halt_pc, fetch_mem, fetch_pc, fetchedWord]

/-- A fetch that returns anything but 0 was from a valid `pc` (R97). -/
theorem valid_of_fetchedWord_ne_zero {s : State} (h : fetchedWord s ≠ 0#32) : s.mem.Valid s.pc :=
  (ite_ne_right_iff.mp h).1

/-! ## The obligations -/

/-- Settles O9, by induction from the end of the list: the last word is stored above the others and leaves them alone. -/
theorem loadedWordsAreInMemory : Obligations.LoadedWordsAreInMemory := by
  intro ws cursor s halign
  induction ws using List.reverseRecOn with
  | nil => exact fun _ => ⟨rfl, rfl⟩
  | append_singleton ws w ih =>
    intro hbound
    rw [List.length_append, List.length_singleton] at hbound ⊢
    obtain ⟨hwords, hdiags⟩ := ih (by omega)
    have haddr : (cursor + BitVec.ofNat 32 (4 * ws.length)).toNat = cursor.toNat + 4 * ws.length :=
      Memory.toNat_add_ofNat (m := s.mem) (by omega)
    have hvalid : (loadFrom cursor (ws.map .word) s).mem.Valid (cursor + BitVec.ofNat 32 (4 * ws.length)) := by
      rw [Memory.Valid, loadFrom_size, haddr]
      omega
    rw [loadFrom_words_concat, State.memWrite_mem, State.memWrite_diags, if_pos hvalid, if_pos hvalid, haddr,
      Memory.words_succ, Memory.words_writeMasked_above _ (Nat.le_refl _), Memory.word_writeMasked_same, hwords]
    exact ⟨rfl, hdiags⟩

/-- Settles O58, by the cases of a move. -/
theorem hostMovesKeepInv : Obligations.HostMovesKeepInv := by
  intro m s t a hm
  obtain ⟨rfl, hstep⟩ | ⟨entryPc, irAfter, rfl, rfl⟩ | hkeep := hostMove_cases hm
  · exact ⟨fun hinv => stepKeepsInv s t hinv hstep, fun htick => absurd rfl htick⟩
  · exact ⟨fun hinv => hostReset_inv hinv.2 entryPc irAfter, fun _ hreset => absurd rfl (hreset entryPc irAfter)⟩
  · have hregs : SameRegs s t := State.readReg_congr hkeep.x
    exact ⟨fun ⟨hzero, hwf⟩ => ⟨(hregs 0#5).trans hzero, hkeep.wf hwf⟩,
      fun _ _ => ⟨hregs, hkeep.pc, hkeep.ir, hkeep.run⟩⟩

/-- Settles O59: the last step of the run fetched the breakpoint word, which is not 0, and left it at `pc`. -/
theorem normalEndIsAtABreakpoint : Obligations.NormalEndIsAtABreakpoint := by
  rintro s t ⟨fuel, hrun, hbrk⟩
  obtain ⟨u, hstep, -⟩ := exists_step_of_runToHalt hrun
  cases shape_of_step hstep with
  | ok _ _ hout => cases hout.symm.trans hbrk
  | brk hd =>
    have hword : fetchedWord u = ebreakWord := eq_ebreakWord_of_decode hd
    have hleft : fetchedWord u.fetch.2.raiseBreak = ebreakWord := (fetchedWord_fetch_halt u .brk).trans hword
    have hvalid : u.fetch.2.raiseBreak.mem.Valid u.fetch.2.raiseBreak.pc :=
      valid_of_fetchedWord_ne_zero (by rw [hleft]; decide)
    exact ⟨rfl, (fetch_fst_eq_fetchedWord u).trans hword, hvalid, (if_pos hvalid).symm.trans hleft⟩
  | fatal => cases hbrk

/-- Settles O60: the last step of the run fetched a word of a fatal class, and left `pc` and memory alone. -/
theorem errorEndIsAtAWordOfNoInstruction : Obligations.ErrorEndIsAtAWordOfNoInstruction := by
  rintro s t ⟨fuel, opcode, pc, hrun, hfatal⟩
  obtain ⟨u, hstep, -⟩ := exists_step_of_runToHalt hrun
  cases shape_of_step hstep with
  | ok _ _ hout => cases hout.symm.trans hfatal
  | brk => cases hfatal
  | fatal hd =>
    have hleft : fetchedWord u.fetch.2.raiseFatal = fetchedWord u := fetchedWord_fetch_halt u _
    rw [hleft]
    exact ⟨rfl, rfl, fetch_fst_eq_fetchedWord u, decode_ne_instr hd⟩

/-- Settles O1, field by field; the first tick from a bad entry address is that of a bad `pc`. -/
theorem hostResetLeavesResetValues : Obligations.HostResetLeavesResetValues := by
  intro s entryPc irAfter
  refine ⟨s.hostReset_readReg entryPc irAfter, rfl, rfl, rfl, rfl, rfl, rfl, fun hinvalid => ?_⟩
  exact ⟨_, fetchFromBadPcIsFatal (s.hostReset entryPc irAfter) rfl hinvalid, rfl, rfl⟩

end Claims

end Sys2Proof
end
